-- ==== Sys2Proof/Word.lean ====
section
/-! DEFINITION. The words of the hardware: the widths that 00_scope.md R5 and R6 fix. All values are
unsigned, bit 0 is the least significant bit, and addition, subtraction and left shift are modular in
the width (R7), which is the arithmetic of `BitVec`. -/

namespace Sys2Proof

/-- One byte; also one ASCII character and one TimeoutCode (R5). -/
abbrev Byte := BitVec 8

/-- A TimeoutTicks value, and the `arg` field of a command word (R5, 30_encoding.md R36). -/
abbrev Half := BitVec 16

/-- A command word `CW` (30_encoding.md R36). -/
abbrev CommandWord := BitVec 18

/-- The value of the response port `COUNT` (10_state.md R12). -/
abbrev Count := BitVec 17

end Sys2Proof
end

