-- ==== Sys2Proof/Config.lean ====
section
/-! DEFINITION. What the spec leaves open: the parameters of 00_scope.md R6 as plain data, and the one
free value, 70_reset_and_hazards.md R107. -/

namespace Sys2Proof

/-- What stands at the addresses of a region: plain memory (a read gives the last value written and
neither access has another effect) or a device (20_memory.md R26). -/
inductive RegionKind where
  | plain
  | device
deriving DecidableEq, Repr

/-- A range of addresses of the platform's map, `base .. base + size - 1`, and what the block may do
there: the platform's predicates `Readable` and `Writable` (20_memory.md R20). -/
structure Region where
  base     : Nat
  size     : Nat
  kind     : RegionKind
  readable : Bool
  writable : Bool
deriving DecidableEq, Repr

/-- The parameters of a model of the block (00_scope.md R6): the address width `AW` and the map from
which `Readable`, `Writable` and "plain memory" are read. The first region that holds an address speaks
for it; an address in no region is not allocated. The parameters stand in the state, so a statement
about every state is a statement about every platform (log 2). -/
structure Platform where
  aw  : Nat
  map : List Region
deriving DecidableEq, Repr

/-- The free draws of 70_reset_and_hazards.md R107: the byte that a destination cell of an abandoned
`HX.BUF` holds. Nothing is known of it; the argument is the state's counter `draws` (log 10). -/
opaque Config.freeByte : Nat → Byte

end Sys2Proof
end

