-- ==== Sys2Proof/Syntax.lean ====
section
/-! DEFINITION. The commands of the block: what a caller presents (the triple of 10_state.md R11) and
what it stands for (the four operations of 30_encoding.md R38 with the operands of R39). -/

namespace Sys2Proof

/-- A command as it stands on the input ports: `CW`, `SRC`, `DST` (10_state.md R11). A side port may
hold no value (R11); an address is a Nat, since its width `AW` is a parameter (log 7). -/
structure Command where
  cw  : CommandWord
  src : Option Nat
  dst : Option Nat
deriving DecidableEq, Repr

/-- An operation and its operands, one constructor for each row of opcode_table.json
(30_encoding.md R38, R39, R47). -/
inductive Instr where
  /-- `TC.DEC code`: 40_timeoutcodec.md R50. -/
  | tcDec (code : Byte)
  /-- `TC.ENC ticks`: 40_timeoutcodec.md R51. -/
  | tcEnc (ticks : Half)
  /-- `HX.BYTE b`: 42_hexcodec.md R80. -/
  | hxByte (b : Byte)
  /-- `HX.BUF src, dst, n`: 42_hexcodec.md R82; `src` and `dst` are the side ports taken whole. -/
  | hxBuf (src dst : Option Nat) (n : Half)
deriving DecidableEq, Repr

end Sys2Proof
end

