-- ==== Sys2Proof/WellFormed.lean ====
section
/-! DEFINITION. Which parameters and which operands exist at all. The scalar operands need no check,
their widths are in their types (30_encoding.md R39); an address must fit the `AW` bits of its side
port (R37), and the parameters must make an address space (00_scope.md R6). -/

namespace Sys2Proof

/-- A region lies inside the address space of `2^aw` cells (20_memory.md R20). -/
def Region.wf (aw : Nat) (r : Region) : Bool := r.base + r.size ≤ 2 ^ aw

/-- `AW >= 1` (00_scope.md R6) and every region of the map exists. -/
def Platform.wf (p : Platform) : Bool := 1 ≤ p.aw && p.map.all (Region.wf p.aw)

/-- A side port holds no value or one of `AW` bits (30_encoding.md R37). -/
def sidePortFits (aw : Nat) : Option Nat → Bool
  | none => true
  | some a => a < 2 ^ aw

/-- The operands of an operation fit the ports they arrive on. -/
def Instr.wf (aw : Nat) : Instr → Bool
  | .tcDec _ => true
  | .tcEnc _ => true
  | .hxByte _ => true
  | .hxBuf src dst _ => sidePortFits aw src && sidePortFits aw dst

end Sys2Proof
end

