-- ==== Sys2Proof/Decode.lean ====
section
/-! DEFINITION. Decoding a command, total on every command and rejecting reserved words by name, and
the encoder, both written from 30_encoding.md R36 to R42. -/

namespace Sys2Proof

/-- What a command stands for: an operation, or a reserved word, which has no meaning
(30_encoding.md R40). -/
inductive Decoded where
  | instr (i : Instr)
  | reservedWord (cw : CommandWord)
deriving DecidableEq, Repr

/-- The selector, `CW[17:16]` (R36). -/
def opField (cw : CommandWord) : BitVec 2 := cw.extractLsb' 16 2

/-- The scalar operand, `CW[15:0]` (R36). -/
def argField (cw : CommandWord) : Half := cw.extractLsb' 0 16

/-- `arg[15:8]`, which must be 0 where the operand is a byte (R38, R40). -/
def argHigh (cw : CommandWord) : Byte := (argField cw).extractLsb' 8 8

/-- `arg[7:0]`, the byte operand (R39). -/
def argLow (cw : CommandWord) : Byte := (argField cw).extractLsb' 0 8

/-- The operation a command stands for. The four values of `op` are all assigned (R38); a byte operand
with a nonzero upper half of `arg` is reserved and never read with those bits dropped (R40). The side
ports are operands of `HX.BUF` only (R37). -/
def decode (c : Command) : Decoded :=
  if opField c.cw = 0b00#2 then
    if argHigh c.cw = 0#8 then .instr (.tcDec (argLow c.cw)) else .reservedWord c.cw
  else if opField c.cw = 0b01#2 then
    .instr (.tcEnc (argField c.cw))
  else if opField c.cw = 0b10#2 then
    if argHigh c.cw = 0#8 then .instr (.hxByte (argLow c.cw)) else .reservedWord c.cw
  else
    .instr (.hxBuf c.src c.dst (argField c.cw))

/-- A command word from its two fields, `op` in the more significant bits (R36). -/
def commandWord (op : BitVec 2) (arg : Half) : CommandWord :=
  (op.setWidth 18 <<< 16) ||| arg.setWidth 18

/-- The command of an operation: the selectors of R38, the scalar operand right-aligned in `arg` and
zero-extended (R36). An operation without side ports is encoded with no value on them (10_state.md
R11). -/
def encode : Instr → Command
  | .tcDec code => ⟨commandWord 0b00#2 (code.setWidth 16), none, none⟩
  | .tcEnc ticks => ⟨commandWord 0b01#2 ticks, none, none⟩
  | .hxByte b => ⟨commandWord 0b10#2 (b.setWidth 16), none, none⟩
  | .hxBuf src dst n => ⟨commandWord 0b11#2 n, src, dst⟩

/-- A row of opcode_table.json as a mask and the value to match over `CW` (R38). -/
structure EncodingRow where
  mask  : CommandWord
  value : CommandWord
deriving DecidableEq, Repr

/-- The row of an operation, as the second table of R38 gives it. -/
def encodingRow : Instr → EncodingRow
  | .tcDec _ => ⟨0x3FF00#18, 0x00000#18⟩
  | .tcEnc _ => ⟨0x30000#18, 0x10000#18⟩
  | .hxByte _ => ⟨0x3FF00#18, 0x20000#18⟩
  | .hxBuf _ _ _ => ⟨0x30000#18, 0x30000#18⟩

/-- "A word `w` selects the row when `w & mask == match`" (R38). -/
def EncodingRow.selectedBy (r : EncodingRow) (cw : CommandWord) : Bool := decide (cw &&& r.mask = r.value)

/-- The command that a table word of `nbits` bits stands for: the word on `CW`, address 0 on `SRC`, and
on `DST` the first address after the `n` source bytes, so that the two buffers of an `HX.BUF` are
adjacent and do not overlap (42_hexcodec.md R82); with the operand bits 0 both side ports are 0
(log 15). A number that needs more than 18 bits is no command word. -/
def tableCommand (nbits w : Nat) : Option Command :=
  let v := w % 2 ^ nbits
  if v < 2 ^ 18 then
    some ⟨BitVec.ofNat 18 v, some 0, some (argField (BitVec.ofNat 18 v)).toNat⟩
  else none

/-- The operation that the decoder reads from a word of opcode_table.json, none where it refuses. -/
def decodeTableWord (nbits w : Nat) : Option Instr :=
  match tableCommand nbits w with
  | none => none
  | some c =>
    match decode c with
    | .instr i => some i
    | .reservedWord _ => none

end Sys2Proof
end

