-- ==== Sys2Proof/Machine/Tables.lean ====
section
/-! DEFINITION. The constant table of the block, and the platform on which `State.reset` stands. -/

namespace Sys2Proof.Machine

/-- The storage of the hex digit table: 16 entries of 8 bits (10_state.md R10). -/
abbrev HexRom := Vector Byte 16

/-- The hex digit table, the ASCII codes of `'0'..'9'`, `'A'..'F'` (10_state.md R10). -/
def hexDigits : HexRom :=
  #v[0x30, 0x31, 0x32, 0x33, 0x34, 0x35, 0x36, 0x37, 0x38, 0x39, 0x41, 0x42, 0x43, 0x44, 0x45, 0x46]

/-- The platform of the scripts of 95_test_vectors.md section 6: `AW = 16`, every address plain memory,
readable and writable. DESIGN CHOICE (log 2): the parameters are OPEN in the spec (00_scope.md R6). -/
def scriptPlatform : Platform := ⟨16, [⟨0, 65536, .plain, true, true⟩]⟩

end Sys2Proof.Machine
end

