-- ==== Sys2Proof/Machine/State.lean ====
section
/-! DEFINITION. The state of the model, its reset value, and the reasons a step can stop. The state is
everything 10_state.md gives the block (R10, R11, R12), the external memory it works on (R18), the
parameters (00_scope.md R6), and four fields of the model's own that say what the outside does and sees
(logs 1, 10, 12, 14). -/

namespace Sys2Proof.Machine

/-- External memory: byte cells in canonical form, addresses strictly rising and no cell that holds what
an unlisted address reads as (`Memory.wf`). -/
abbrev Memory := List Host.Cell

/-- The five response ports (10_state.md R12). -/
inductive ResponsePort where
  | ticks
  | code
  | chi
  | clo
  | count
deriving DecidableEq, Repr

/-- What the response ports hold. `none` is the spec's "no value" (10_state.md R12, R19): a port that
the last command did not drive, or any port before the first command after reset. -/
structure Response where
  ticks : Option Half  := none
  code  : Option Byte  := none
  chi   : Option Byte  := none
  clo   : Option Byte  := none
  count : Option Count := none
deriving DecidableEq, Repr

/-- One access of the block on its memory port, always one byte wide (20_memory.md R22). -/
inductive Access where
  | read (a : Nat)
  | write (a : Nat) (v : Byte)
deriving DecidableEq, Repr

/-- What the outside world does to the block, one thing at a time (log 1). -/
inductive Event where
  /-- the caller presents a command (10_state.md R11; 70_reset_and_hazards.md R110) -/
  | issue (c : Command)
  /-- the block runs the command in progress to its completion (R116); idle, it does nothing -/
  | blockRuns
  /-- the caller reads a response port (10_state.md R12) -/
  | readPort (p : ResponsePort)
  /-- an agent other than the block, the caller among them, stores a byte (20_memory.md R28) -/
  | agentWrite (a : Nat) (v : Byte)
  /-- an agent other than the block, the caller among them, loads a byte (20_memory.md R28) -/
  | agentRead (a : Nat)
  /-- the reset input (70_reset_and_hazards.md R105 to R107) -/
  | reset
  /-- the platform removes power and restores it (60_exceptions.md R103) -/
  | powerCycle
deriving DecidableEq, Repr

/-- A value that the caller, or another agent, has read. -/
inductive Observation where
  | ticks (v : Half)
  | code (v : Byte)
  | chi (v : Byte)
  | clo (v : Byte)
  | count (v : Count)
  | byte (a : Nat) (v : Byte)
deriving DecidableEq, Repr

/-- The state of the model. -/
structure State where
  /-- the parameters `AW`, `Readable`, `Writable` (00_scope.md R6); no step changes them -/
  platform : Platform
  /-- `HEXROM` (10_state.md R10) -/
  hexRom   : HexRom
  /-- external memory (10_state.md R18) -/
  mem      : Memory
  /-- port `CW`: the word of the command in progress; none when the block is idle (R11, R15) -/
  cw       : Option CommandWord
  /-- side port `SRC` of the command in progress (R11) -/
  src      : Option Nat
  /-- side port `DST` of the command in progress (R11) -/
  dst      : Option Nat
  /-- the response ports (R12) -/
  rsp      : Response
  /-- the memory accesses of the command last completed, in order (20_memory.md R25; log 12) -/
  bus      : List Access
  /-- the model's own: how many free bytes have been drawn (70_reset_and_hazards.md R107; log 10) -/
  draws    : Nat
  /-- the model's own: what the outside world does next, the next event first (log 1) -/
  timeline : List Event
  /-- the model's own: what has been read from the ports and from memory, newest first (log 14) -/
  observed : List Observation
deriving DecidableEq, Repr

/-- The block raises no exception (60_exceptions.md R90, R94): there is no fault, so no step ends in
one, and the type has no constructor. -/
inductive Fault where
deriving DecidableEq, Repr

/-- Why a step is given no meaning. V1 to V9 are the contract violations of 60_exceptions.md R91, for
which the hardware's behaviour is undefined and the model refuses (R92). Every refusal is SAFE: it
claims nothing of a machine that would go on. -/
inductive Refusal where
  /-- an instruction without a meaning yet; raised by an arm of `exec` only; none is left. Safe. -/
  | notModelled (mnemonic : String)
  /-- V1: a reserved command word (30_encoding.md R40); raised when it is issued. Safe. -/
  | reservedWord
  /-- V2: a source address is not `Readable` (20_memory.md R29); raised by `HX.BUF`. Safe. -/
  | sourceNotReadable
  /-- V3: a destination address is not `Writable` (20_memory.md R29); raised by `HX.BUF`. Safe. -/
  | destinationNotWritable
  /-- V4: a range passes address `2^AW - 1` (20_memory.md R29); raised by `HX.BUF`. Safe. -/
  | addressWrap
  /-- V5: source and destination share an address (20_memory.md R30); raised by `HX.BUF`. Safe. -/
  | rangesOverlap
  /-- V6: a range holds a device cell (20_memory.md R26); raised by `HX.BUF`. Safe. -/
  | notPlainMemory
  /-- V7: another agent touches a buffer in use (20_memory.md R28); raised by the agent's access. Safe. -/
  | dataRace
  /-- V8: a command is issued while one is in progress (70_reset_and_hazards.md R110). Safe. -/
  | commandInProgress
  /-- V9: a response port that holds no value is read (10_state.md R12). Safe. -/
  | portNotDriven (p : ResponsePort)
  /-- `HX.BUF` with `n >= 1` and no value on `SRC` or `DST`: no address to work on (log 6). Safe. -/
  | sidePortNotDriven
  /-- another agent's access outside plain memory: no rule says what it does (log 8). Safe. -/
  | agentOutsideMemory
  /-- power removed while a command is in progress; R103 speaks of an idle block only (log 11). Safe. -/
  | powerLostInProgress
deriving DecidableEq, Repr

/-- The outcome of a step of this machine. -/
abbrev Outcome := Host.Outcome State Fault Refusal

/-- The launch state of a model (93_implementation_defined.md S3, S6): the block right after reset
(10_state.md R19) on a platform with some memory contents and what the outside will do. -/
def State.launch (platform : Platform) (mem : Memory) (timeline : List Event) : State where
  platform := platform
  hexRom := hexDigits
  mem := mem
  cw := none
  src := none
  dst := none
  rsp := {}
  bus := []
  draws := 0
  timeline := timeline
  observed := []

/-- The machine right after reset: idle, no port holds a value, the table holds its constants
(10_state.md R19). The platform and the memory contents, which the spec leaves open, are those of
logs 2 and 3. -/
def State.reset : State := State.launch scriptPlatform [] []

end Sys2Proof.Machine
end

