-- ==== Sys2Proof/Machine/Flags.lean ====
section
/-! DEFINITION. The block has no flags (10_state.md R16): all that an operation reports stands on its
response ports. These are the responses of the four operations; each drives its own ports and leaves
every other port without a value (10_state.md R12, 30_encoding.md R38, R46). -/

namespace Sys2Proof.Machine

/-- The response of `TC.DEC`. -/
def Response.ofTicks (v : Half) : Response := { ticks := some v }

/-- The response of `TC.ENC`. -/
def Response.ofCode (v : Byte) : Response := { code := some v }

/-- The response of `HX.BYTE`: two separate ports, never one packed value (10_state.md R12). -/
def Response.ofChars (hi lo : Byte) : Response := { chi := some hi, clo := some lo }

/-- The response of `HX.BUF`. -/
def Response.ofCount (v : Count) : Response := { count := some v }

/-- What reading one port gives, none where the port holds no value (10_state.md R12). -/
def Response.at (r : Response) : ResponsePort → Option Observation
  | .ticks => r.ticks.map .ticks
  | .code => r.code.map .code
  | .chi => r.chi.map .chi
  | .clo => r.clo.map .clo
  | .count => r.count.map .count

end Sys2Proof.Machine
end

