-- ==== Sys2Proof/Machine/Memory.lean ====
section
/-! DEFINITION. External memory: one read, one write, both of one byte (20_memory.md R20, R22), over a
list kept in canonical form. -/

namespace Sys2Proof.Machine

/-- What a cell that nothing has written reads as. DESIGN CHOICE (log 3): the power-up contents are a
parameter (93_implementation_defined.md S3); any contents can be listed in the launch state. -/
def Memory.unlisted : Byte := 0x00#8

/-- The byte at an address. -/
def Memory.read : Memory → Nat → Byte
  | [], _ => Memory.unlisted
  | (k, v) :: m, a => if k = a then v else Memory.read m a

/-- Memory without an entry for an address. -/
def Memory.erase : Memory → Nat → Memory
  | [], _ => []
  | (k, v) :: m, a => if k = a then Memory.erase m a else (k, v) :: Memory.erase m a

/-- An entry put before the first one of a higher address. -/
def Memory.place : Memory → Nat → Byte → Memory
  | [], a, v => [(a, v)]
  | (k, w) :: m, a, v => if a < k then (a, v) :: (k, w) :: m else (k, w) :: Memory.place m a v

/-- Store a byte. A cell that then holds what an unlisted cell reads as is not listed. -/
def Memory.write (m : Memory) (a : Nat) (v : Byte) : Memory :=
  if v = Memory.unlisted then m.erase a else (m.erase a).place a v

/-- Canonical form from an address on: addresses at least `lo` and strictly rising, no entry equal to
what an unlisted cell reads as. -/
def Memory.wfFrom : Nat → Memory → Bool
  | _, [] => true
  | lo, (a, v) :: m => lo ≤ a && v != Memory.unlisted && Memory.wfFrom (a + 1) m

/-- The canonical form, in which equal memories are equal data. -/
def Memory.wf (m : Memory) : Bool := Memory.wfFrom 0 m

/-- Every listed cell lies in the address space of `2^aw` cells (20_memory.md R20). -/
def Memory.below (aw : Nat) (m : Memory) : Bool := m.all (fun c => c.1 < 2 ^ aw)

/-- Store one byte for each index `0 .. len - 1` from `base` upward, in ascending order. -/
def Memory.fill (base : Nat) (f : Nat → Byte) : Nat → Memory → Memory
  | 0, m => m
  | len + 1, m => (Memory.fill base f len m).write (base + len) (f len)

end Sys2Proof.Machine
end

