-- ==== Sys2Proof/Machine/Operands.lean ====
section
/-! DEFINITION. The operands of `HX.BUF`: the platform's predicates over addresses and the caller
contract on the two buffers (20_memory.md R20, R26, R29, R30). Scalar operands are plain slices of
`arg` and are taken in the decoder (30_encoding.md R39). -/

namespace Sys2Proof.Machine

/-- The region of the platform's map that speaks for an address; an address outside the `2^AW` cells is
in none (20_memory.md R20). -/
def regionAt (p : Platform) (a : Nat) : Option Region :=
  if a < 2 ^ p.aw then p.map.find? (fun r => r.base ≤ a && a < r.base + r.size) else none

/-- The address is allocated plain memory (20_memory.md R26). -/
def plainAt (p : Platform) (a : Nat) : Bool :=
  match regionAt p a with
  | some r => r.kind = .plain
  | none => false

/-- The address is allocated to something that is not plain memory (20_memory.md R26). -/
def deviceAt (p : Platform) (a : Nat) : Bool :=
  match regionAt p a with
  | some r => r.kind = .device
  | none => false

/-- `Readable(a)`: allocated plain memory that the block may read (00_scope.md R6). -/
def readableAt (p : Platform) (a : Nat) : Bool :=
  match regionAt p a with
  | some r => r.kind = .plain && r.readable
  | none => false

/-- `Writable(a)`: allocated plain memory that the block may write (00_scope.md R6). -/
def writableAt (p : Platform) (a : Nat) : Bool :=
  match regionAt p a with
  | some r => r.kind = .plain && r.writable
  | none => false

/-- A predicate holds at `len` addresses from `base` upward. -/
def allFrom (ok : Nat → Bool) (base : Nat) : Nat → Bool
  | 0 => true
  | len + 1 => ok base && allFrom ok (base + 1) len

/-- The address is one of `len` from `base` upward. -/
def inRange (base len a : Nat) : Bool := base ≤ a && a < base + len

/-- Two ranges share no address (20_memory.md R30); neither is empty where this is asked. -/
def rangesApart (base len base' len' : Nat) : Bool := base + len ≤ base' || base' + len' ≤ base

/-- The contract violation of an `HX.BUF` on two given addresses, if there is one: V2 to V6 of
60_exceptions.md R91. Sums are unbounded integers (20_memory.md R29). With `n = 0` both ranges are empty
and every condition holds (R29). When there are several violations any one may be named
(60_exceptions.md R93). -/
def bufferViolation (p : Platform) (src dst n : Nat) : Option Refusal :=
  if n = 0 then none
  else if 2 ^ p.aw < src + n || 2 ^ p.aw < dst + 2 * n then some .addressWrap
  else if !rangesApart src n dst (2 * n) then some .rangesOverlap
  else if !(allFrom (fun a => !deviceAt p a) src n && allFrom (fun a => !deviceAt p a) dst (2 * n)) then
    some .notPlainMemory
  else if !allFrom (readableAt p) src n then some .sourceNotReadable
  else if !allFrom (writableAt p) dst (2 * n) then some .destinationNotWritable
  else none

/-- The violation of an `HX.BUF` whose side ports may hold no value. With `n = 0` the side ports are not
used and need hold nothing (42_hexcodec.md R83); otherwise an `HX.BUF` without an address is no command
(log 6). -/
def sidePortViolation (p : Platform) (src dst : Option Nat) (n : Half) : Option Refusal :=
  if n = 0#16 then none
  else
    match src, dst with
    | some a, some b => bufferViolation p a b n.toNat
    | _, _ => some .sidePortNotDriven

end Sys2Proof.Machine
end

