-- ==== Sys2Proof/Machine/Ops.lean ====
section
/-! DEFINITION. The shared operations of the meanings: the table read, the memory port, the begin and
the end of a command, going idle. There is no exception to take and none to return from
(60_exceptions.md R90, R94, R95); a contract violation is a refusal (R92), decided before any effect. -/

namespace Sys2Proof.Machine

/-- `HEXROM[i]` (00_scope.md R8, 10_state.md R10). -/
def romRead (rom : HexRom) (i : BitVec 4) : Byte := rom[i.toNat]'i.isLt

/-- `v[7:4]` (42_hexcodec.md R80). -/
def highNibble (v : Byte) : BitVec 4 := v.extractLsb' 4 4

/-- `v[3:0]` (42_hexcodec.md R80). -/
def lowNibble (v : Byte) : BitVec 4 := v.extractLsb' 0 4

/-- The character of the high nibble of a byte. -/
def highChar (rom : HexRom) (v : Byte) : Byte := romRead rom (highNibble v)

/-- The character of the low nibble of a byte. -/
def lowChar (rom : HexRom) (v : Byte) : Byte := romRead rom (lowNibble v)

/-- The byte that `MemRead(a, 1)` gives (00_scope.md R8). -/
def memByte (s : State) (a : Nat) : Byte := s.mem.read a

/-- `MemRead(a, 1)` done on the memory port: plain memory, so nothing but the port's record changes
(20_memory.md R22, R26). -/
def memRead (a : Nat) (s : State) : State := { s with bus := s.bus ++ [.read a] }

/-- `MemWrite(a, 1, v)` done on the memory port (00_scope.md R8, 20_memory.md R22). -/
def memWrite (a : Nat) (v : Byte) (s : State) : State :=
  { s with mem := s.mem.write a v, bus := s.bus ++ [.write a v] }

/-- An operation starts: no response of an earlier command is kept (10_state.md R12), and no access has
been made for this one. -/
def beginCommand (s : State) : State := { s with rsp := {}, bus := [] }

/-- A command completes: its response is driven and no command is in progress any more; the block keeps
no copy of the ports (10_state.md R11, 70_reset_and_hazards.md R110). -/
def completeCommand (r : Response) (s : State) : State :=
  { s with cw := none, src := none, dst := none, rsp := r }

/-- The block after reset: idle, no port holds a value, the table, the memory and everything outside
the block as before (10_state.md R19, 70_reset_and_hazards.md R105, R106). -/
def goIdle (s : State) : State := { s with cw := none, src := none, dst := none, rsp := {}, bus := [] }

/-- The command in progress, as the input ports hold it; none when the block is idle
(10_state.md R11, R15). It is what a step decodes: the block fetches nothing from memory
(20_memory.md R34). -/
def commandInProgress (s : State) : Option Command := s.cw.map (fun w => ⟨w, s.src, s.dst⟩)

/-- The contract violation of an operation (60_exceptions.md R91): only `HX.BUF` has one. -/
def contractViolation (p : Platform) : Instr → Option Refusal
  | .tcDec _ => none
  | .tcEnc _ => none
  | .hxByte _ => none
  | .hxBuf src dst n => sidePortViolation p src dst n

/-- Why a command is refused, if it is: a reserved word (V1) or a broken contract (60_exceptions.md
R91, R92). It depends on the command and the platform alone. -/
def commandViolation (p : Platform) (c : Command) : Option Refusal :=
  match decode c with
  | .instr i => contractViolation p i
  | .reservedWord _ => some .reservedWord

end Sys2Proof.Machine
end

