-- ==== Sys2Proof/Machine/HexCodec.lean ====
section
/-! DEFINITION. HexCodec: `HX.BYTE` (42_hexcodec.md R80) and `HX.BUF` (R82). -/

namespace Sys2Proof.Machine

/-- `HX.BYTE` (42_hexcodec.md R80): drives `CHI` and `CLO`, touches nothing else. -/
def execHxByte (b : Byte) (s : State) : Outcome :=
  .next (completeCommand (.ofChars (highChar s.hexRom b) (lowChar s.hexRom b)) (beginCommand s))

/-- The body of the loop of `HX.BUF` for the source byte at `sp`: one read, then the high-nibble
character to the lower address and the low-nibble character to the next (20_memory.md R23, R25). -/
def bufElement (sp dp : Nat) (s : State) : State :=
  let b := memByte s sp
  memWrite (dp + 1) (lowChar s.hexRom b) (memWrite dp (highChar s.hexRom b) (memRead sp s))

/-- The loop of `HX.BUF` (42_hexcodec.md R82) for the source bytes that are left: both cursors advance,
the count of characters grows by two for each byte. -/
def bufLoop : Nat → Nat → Nat → Count → State → Count × State
  | 0, _, _, cnt, s => (cnt, s)
  | left + 1, sp, dp, cnt, s => bufLoop left (sp + 1) (dp + 2) (cnt + 2#17) (bufElement sp dp s)

/-- `HX.BUF` (42_hexcodec.md R82), one step as 20_memory.md R25 allows (log 4). A command outside the
contract is refused before any effect (60_exceptions.md R92). Where a side port holds no value, `n` is 0
here and the loop does not run, so the address put in its place is not used (42_hexcodec.md R83). -/
def execHxBuf (src dst : Option Nat) (n : Half) (s : State) : Outcome :=
  match sidePortViolation s.platform src dst n with
  | some r => .refused r
  | none =>
    let (cnt, s') := bufLoop n.toNat (src.getD 0) (dst.getD 0) 0#17 (beginCommand s)
    .next (completeCommand (.ofCount cnt) s')

end Sys2Proof.Machine
end

