-- ==== Sys2Proof/Machine/TimeoutCodec.lean ====
section
/-! DEFINITION. TimeoutCodec: `TC.DEC` (40_timeoutcodec.md R50) and `TC.ENC` (R51), with every width as
those rules state it. -/

namespace Sys2Proof.Machine

/-- The source's `shift`, an even value in 0..14 (40_timeoutcodec.md R50). -/
def decShift (code : Byte) : BitVec 4 := ((code >>> 3) &&& 0x0E#8).setWidth 4

/-- The source's `mantissa` (40_timeoutcodec.md R50). -/
def decMantissa (code : Byte) : BitVec 4 := (code &&& 0x0F#8).setWidth 4

/-- The mantissa with the implicit leading one, `base` of 40_timeoutcodec.md R50. -/
def decBase (code : Byte) : Half :=
  let lead : BitVec 1 := if decShift code ≠ 0#4 then 1#1 else 0#1
  (decMantissa code).setWidth 16 + lead.setWidth 16

/-- The tick count of a code; the left shift wraps in 16 bits (40_timeoutcodec.md R50). -/
def decTicks (code : Byte) : Half := decBase code <<< (decShift code).toNat

/-- `TC.DEC` (40_timeoutcodec.md R50): drives `TICKS`, touches nothing else. -/
def execTcDec (code : Byte) (s : State) : Outcome :=
  .next (completeCommand (.ofTicks (decTicks code)) (beginCommand s))

/-- The loop of `TC.ENC`, `while t > 16` (40_timeoutcodec.md R51), cut after a number of passes. -/
def encLoop : Nat → Byte → Half → Byte × Half
  | 0, e, t => (e, t)
  | passes + 1, e, t => if 16#16 < t then encLoop passes (e + 2#8) (t >>> 4) else (e, t)

/-- Passes that the loop of `TC.ENC` never needs: a pass shifts 16 bits by 4, and R52 shows that at most
3 passes are made (log 16). -/
def encPassLimit : Nat := 4

/-- The code of a tick count (40_timeoutcodec.md R51). -/
def encCode (ticks : Half) : Byte :=
  if ticks < 16#16 then ticks.setWidth 8
  else
    let (e, t) := encLoop encPassLimit 1#8 (ticks >>> 2)
    ((e.setWidth 16 <<< 4) + (t - 1#16)).setWidth 8

/-- `TC.ENC` (40_timeoutcodec.md R51): drives `CODE`, touches nothing else. -/
def execTcEnc (ticks : Half) (s : State) : Outcome :=
  .next (completeCommand (.ofCode (encCode ticks)) (beginCommand s))

end Sys2Proof.Machine
end

