-- ==== Sys2Proof/Machine/Dispatch.lean ====
section
/-! DEFINITION. The meaning of every operation, one arm for each constructor of `Instr`. -/

namespace Sys2Proof.Machine

def exec (i : Instr) (s : State) : Host.Outcome State Fault Refusal :=
  match i with
  | .tcDec code => Sys2Proof.Machine.execTcDec code s
  | .tcEnc ticks => Sys2Proof.Machine.execTcEnc ticks s
  | .hxByte b => Sys2Proof.Machine.execHxByte b s
  | .hxBuf src dst n => Sys2Proof.Machine.execHxBuf src dst n s

end Sys2Proof.Machine
end

