-- ==== Sys2Proof/Machine/World.lean ====
section
/-! DEFINITION. What the outside world does to the block between two of its commands or in the middle of
one: issuing a command, reading a response port, accessing memory, reset, power. Each works on the state
whose timeline has already moved on. -/

namespace Sys2Proof.Machine

/-- A command is issued. While another is in progress that is V8 (70_reset_and_hazards.md R110). A
command outside the contract is refused now, from the command and the launch state alone
(60_exceptions.md R92). Otherwise the ports are sampled, and until the command completes no response
port holds a value (10_state.md R11, R12). -/
def issue (c : Command) (s : State) : Outcome :=
  if s.cw.isSome then .refused .commandInProgress
  else
    match commandViolation s.platform c with
    | some r => .refused r
    | none => .next { s with cw := some c.cw, src := c.src, dst := c.dst, rsp := {}, bus := [] }

/-- The caller reads a response port; a port that holds no value is V9 (10_state.md R12,
60_exceptions.md R91). -/
def readPort (p : ResponsePort) (s : State) : Outcome :=
  match s.rsp.at p with
  | some o => .next { s with observed := o :: s.observed }
  | none => .refused (.portNotDriven p)

/-- The address is in the source range of the `HX.BUF` in progress (20_memory.md R28). -/
def sourceInUse (s : State) (a : Nat) : Bool :=
  match (commandInProgress s).map decode with
  | some (.instr (.hxBuf (some src) _ n)) => inRange src n.toNat a
  | _ => false

/-- The address is in the destination range of the `HX.BUF` in progress (20_memory.md R28). -/
def destInUse (s : State) (a : Nat) : Bool :=
  match (commandInProgress s).map decode with
  | some (.instr (.hxBuf _ (some dst) n)) => inRange dst (2 * n.toNat) a
  | _ => false

/-- Another agent stores a byte: a data race, V7, on either buffer in use (20_memory.md R28), else an
ordinary store to plain memory. -/
def agentWrite (a : Nat) (v : Byte) (s : State) : Outcome :=
  if sourceInUse s a || destInUse s a then .refused .dataRace
  else if plainAt s.platform a then .next { s with mem := s.mem.write a v }
  else .refused .agentOutsideMemory

/-- Another agent loads a byte: a data race, V7, on the destination in use only (20_memory.md R28; two
readers may share a source, 60_exceptions.md R102), else it observes the byte. -/
def agentRead (a : Nat) (s : State) : Outcome :=
  if destInUse s a then .refused .dataRace
  else if plainAt s.platform a then .next { s with observed := .byte a (s.mem.read a) :: s.observed }
  else .refused .agentOutsideMemory

/-- Each destination byte of an abandoned `HX.BUF` is a free draw of its own, and nothing else of memory
changes (70_reset_and_hazards.md R107; log 10). -/
def drawDestination (dst len : Nat) (s : State) : State :=
  { s with
    mem := Memory.fill dst (fun j => Config.freeByte (s.draws + j)) len s.mem
    draws := s.draws + len }

/-- The reset input. Idle, it leaves the block idle with no value on any port (70_reset_and_hazards.md
R106). In the middle of a command it abandons the command without a response: for `HX.BUF` the
destination holds free draws (R107). A command outside the contract has no defined effect to abandon and
stays refused (60_exceptions.md R92); `issue` lets none in. -/
def applyReset (s : State) : Outcome :=
  match commandInProgress s with
  | none => .next (goIdle s)
  | some c =>
    match commandViolation s.platform c with
    | some r => .refused r
    | none =>
      match decode c with
      | .instr (.hxBuf _ (some dst) n) => .next (goIdle (drawDestination dst (2 * n.toNat) s))
      | _ => .next (goIdle s)

/-- Power is removed and restored: from an idle block it has no effect other than that of reset
(60_exceptions.md R103); no rule speaks of a busy one (log 11). -/
def powerCycle (s : State) : Outcome :=
  if s.cw.isSome then .refused .powerLostInProgress else .next (goIdle s)

end Sys2Proof.Machine
end

