-- ==== Sys2Proof/Machine/Run.lean ====
section
/-! DEFINITION. The block running the command in progress, and one event of the outside world: what
`step` calls. -/

namespace Sys2Proof.Machine

/-- The block runs the command in progress to its completion (70_reset_and_hazards.md R110, R116):
decode, then `exec`. Idle, it does nothing. -/
def runBlock (s : State) : Outcome :=
  match commandInProgress s with
  | none => .next s
  | some c =>
    match decode c with
    | .instr i => exec i s
    | .reservedWord _ => .refused .reservedWord

/-- One event of the outside world (log 1). -/
def handleEvent (e : Event) (s : State) : Outcome :=
  match e with
  | .issue c => issue c s
  | .blockRuns => runBlock s
  | .readPort p => readPort p s
  | .agentWrite a v => agentWrite a v s
  | .agentRead a => agentRead a s
  | .reset => applyReset s
  | .powerCycle => powerCycle s

/-- The command of a table word stands on the input ports as issued, and the block is the next to run.
The block fetches nothing from memory (20_memory.md R34), so this stands for the caller's issuing the
command (log 15). A number that is no command word changes nothing. -/
def placeTableWord (s : State) (nbits w : Nat) : State :=
  match tableCommand nbits w with
  | none => s
  | some c => { s with cw := some c.cw, src := c.src, dst := c.dst, timeline := .blockRuns :: s.timeline }

end Sys2Proof.Machine
end

