-- ==== Sys2Proof/Machine/Step.lean ====
section
/-! DEFINITION. One step of the machine: the next event of the timeline, or, when there is none, the
block running on its own (70_reset_and_hazards.md R116; logs 1, 13). -/

namespace Sys2Proof.Machine

/-- One step. -/
def step (s : State) : Host.Outcome State Fault Refusal :=
  match s.timeline with
  | [] => runBlock s
  | e :: rest => handleEvent e { s with timeline := rest }

/-- The state whose very next step runs the operation of a table word (`placeTableWord`). -/
def State.withFetchWord (s : State) (nbits w : Nat) : State := placeTableWord s nbits w

end Sys2Proof.Machine
end

