-- ==== Sys2Proof/Safety.lean ====
section
/-! DEFINITION. The terms in which claims speak: the contract of `HX.BUF` as the spec writes it, the
invariant of the machine, and the closed forms of 41_timeoutcodec_laws.md, each written from its rule and
not from the meanings. -/

namespace Sys2Proof.Machine

/-- The caller contract on the buffers of an `HX.BUF`, line by line: the four lines of 20_memory.md R29
and the disjointness of R30. `Readable` and `Writable` cells are plain memory (00_scope.md R6), which is
R26. With `n = 0` there is nothing to hold but two port values inside the address space. -/
structure BufContract (p : Platform) (src dst n : Nat) : Prop where
  sourceFits : src + n ≤ 2 ^ p.aw
  destFits   : dst + 2 * n ≤ 2 ^ p.aw
  readable   : ∀ i, i < n → readableAt p (src + i) = true
  writable   : ∀ j, j < 2 * n → writableAt p (dst + j) = true
  disjoint   : ∀ a, src ≤ a → a < src + n → ¬ (dst ≤ a ∧ a < dst + 2 * n)

/-- Which ports hold a value: those of one operation, or none (10_state.md R12, R19). -/
def Response.legal (r : Response) : Bool :=
  match r.ticks, r.code, r.chi, r.clo, r.count with
  | none, none, none, none, none => true
  | some _, none, none, none, none => true
  | none, some _, none, none, none => true
  | none, none, some _, some _, none => true
  | none, none, none, none, some _ => true
  | _, _, _, _, _ => false

/-- What holds in every state that a run reaches. -/
structure State.Inv (s : State) : Prop where
  /-- the parameters make an address space (00_scope.md R6) -/
  platformOk : s.platform.wf = true
  /-- the table holds its constants, "never anything else" (10_state.md R19) -/
  romOk      : s.hexRom = hexDigits
  /-- memory is in canonical form -/
  memWf      : s.mem.wf = true
  /-- every listed cell exists (20_memory.md R20) -/
  memBelow   : s.mem.below s.platform.aw = true
  /-- the response ports hold the response of one operation or nothing (10_state.md R12) -/
  rspLegal   : s.rsp.legal = true
  /-- an idle block keeps no copy of the side ports (10_state.md R11) -/
  idlePorts  : s.cw = none → s.src = none ∧ s.dst = none
  /-- while a command is in progress no response port holds a value (70_reset_and_hazards.md R110) -/
  busyEmpty  : s.cw ≠ none → s.rsp = {}
  /-- the command in progress is inside the contract (60_exceptions.md R92) -/
  busyLegal  : ∀ c, commandInProgress s = some c → commandViolation s.platform c = none

/-- The exponent class `E = code[6:4]` (30_encoding.md R43). -/
def classOf (code : Byte) : Nat := code.toNat / 16 % 8

/-- The mantissa `M = code[3:0]` (30_encoding.md R43). -/
def mantissaOf (code : Byte) : Nat := code.toNat % 16

/-- The closed form of decode (41_timeoutcodec_laws.md R61). -/
def closedTicks (code : Byte) : Nat :=
  if classOf code = 0 then mantissaOf code
  else ((mantissaOf code + 1) * 4 ^ classOf code) % 2 ^ 16

/-- The total right shift `s(t)` of encode (41_timeoutcodec_laws.md R62). -/
def closedShift (t : Nat) : Nat :=
  if t ≤ 15 then 0
  else if t ≤ 67 then 2
  else if t ≤ 1087 then 6
  else if t ≤ 17407 then 10
  else 14

/-- The closed form of encode (41_timeoutcodec_laws.md R62). -/
def closedCode (t : Nat) : Nat :=
  if closedShift t = 0 then t
  else closedShift t / 2 * 16 + (t / 2 ^ closedShift t - 1)

/-- The caller's round trip `rt(t) = dec(enc(t))` (41_timeoutcodec_laws.md), two commands
(30_encoding.md R48). -/
def roundTrip (t : Half) : Half := decTicks (encCode t)

/-- The 64 codes that encode produces (41_timeoutcodec_laws.md R64). -/
def inImage (c : Nat) : Bool :=
  c ≤ 0x0F || (0x13 ≤ c && c ≤ 0x1F) || (0x30 ≤ c && c ≤ 0x3F) || (0x50 ≤ c && c ≤ 0x5F) ||
    (0x70 ≤ c && c ≤ 0x72)

/-- The accesses of an `HX.BUF` in the order of 20_memory.md R25, over the memory before the command. -/
def bufAccesses (rom : HexRom) (m : Memory) (src dst : Nat) (n : Nat) : List Access :=
  (List.range n).flatMap (fun i =>
    [.read (src + i),
     .write (dst + 2 * i) (highChar rom (m.read (src + i))),
     .write (dst + 2 * i + 1) (lowChar rom (m.read (src + i)))])

end Sys2Proof.Machine
end

