-- ==== Sys2Proof/Certificates/Slice0/Obligations.lean ====
section
/-! DEFINITION. The statements for the provers. Each docstring names the rule of spec/ it formalises; a
clause that rests on a choice of the model says so and names the log entry. `exec` answers in terms of
the whole next state wherever it can, so that the frame of an operation is part of its result. -/

open Sys2Proof Sys2Proof.Machine

/-! ### Encoding (30_encoding.md) -/

/-- 30_encoding.md R36 to R39: the encoder drops no bit of an operand and the decoder reads every one,
for every operation and every operand value. -/
def Obligations.DecodeOfEncodeIsTheInstruction : Prop :=
  ∀ i : Instr, decode (encode i) = .instr i

/-- 30_encoding.md R36, R37: encoding what a legal command decodes to gives its command word back, and
its side ports where the operation has them. -/
def Obligations.EncodeOfDecodeIsTheWord : Prop :=
  ∀ (c : Command) (i : Instr), decode c = .instr i →
    (encode i).cw = c.cw ∧
    (∀ src dst n, i = .hxBuf src dst n → (encode i).src = c.src ∧ (encode i).dst = c.dst)

/-- 30_encoding.md R39: each operand is a plain unsigned slice of `arg`, or a side port taken whole. -/
def Obligations.OperandsAreSlicesOfTheWord : Prop :=
  ∀ (w : CommandWord) (src dst : Option Nat) (i : Instr), decode ⟨w, src, dst⟩ = .instr i →
    match i with
    | .tcDec code => w.toNat / 65536 = 0 ∧ code.toNat = w.toNat % 256
    | .tcEnc ticks => w.toNat / 65536 = 1 ∧ ticks.toNat = w.toNat % 65536
    | .hxByte b => w.toNat / 65536 = 2 ∧ b.toNat = w.toNat % 256
    | .hxBuf a b n => w.toNat / 65536 = 3 ∧ n.toNat = w.toNat % 65536 ∧ a = src ∧ b = dst

/-- 30_encoding.md R38, R40: an 18-bit word is reserved exactly when `op` is 00 or 10 and `arg[15:8]` is
not 0, and then it selects no row of the table; every other word decodes to an operation whose row it
selects, and it selects no other row. -/
def Obligations.EveryWordSelectsOneRowOrIsReserved : Prop :=
  ∀ (w : CommandWord) (src dst : Option Nat),
    match decode ⟨w, src, dst⟩ with
    | .instr i =>
      (encodingRow i).selectedBy w = true ∧
      (∀ j, (encodingRow j).selectedBy w = true → encodingRow j = encodingRow i) ∧
      ¬ ((w.toNat / 65536 = 0 ∨ w.toNat / 65536 = 2) ∧ w.toNat / 256 % 256 ≠ 0)
    | .reservedWord x =>
      x = w ∧ (∀ j, (encodingRow j).selectedBy w = false) ∧
      (w.toNat / 65536 = 0 ∨ w.toNat / 65536 = 2) ∧ w.toNat / 256 % 256 ≠ 0

/-- Words written out from the patterns of 30_encoding.md R38 (and listed in 95_test_vectors.md sections
2, 3 and 5) decode to what they stand for. -/
def Obligations.WordsWrittenOutDecode : Prop :=
  decode ⟨0b00_00000000_00111110#18, none, none⟩ = .instr (.tcDec 0x3E) ∧
  decode ⟨0b01_00000011_11101000#18, none, none⟩ = .instr (.tcEnc 1000) ∧
  decode ⟨0b10_00000000_11011110#18, none, none⟩ = .instr (.hxByte 0xDE) ∧
  decode ⟨0b11_00000000_00000010#18, some 0x100, some 0x200⟩ =
    .instr (.hxBuf (some 0x100) (some 0x200) 2) ∧
  decode ⟨0b00_00000001_00000000#18, none, none⟩ = .reservedWord 0x00100 ∧
  decode ⟨0b10_10000000_00000000#18, none, none⟩ = .reservedWord 0x28000

/-! ### The operations: results, completion and frames -/

/-- 40_timeoutcodec.md R50: `TC.DEC` completes from every state with every code; it drives `TICKS` with
`(mantissa + (shift != 0)) << shift` in 16 bits, `shift = (code >> 3) & 0x0E`, and writes nothing else
(the ports of the completed command are released, 10_state.md R11; the record of memory accesses, the
MODEL's own, log 12, is empty). Its word is `00 00000000 cccccccc`,
whatever the side ports hold. -/
def Obligations.TcDecDrivesTheScaledMantissa : Prop :=
  ∀ (code : Byte) (s : State) (src dst : Option Nat),
    decode ⟨commandWord 0b00#2 (code.setWidth 16), src, dst⟩ = .instr (.tcDec code) ∧
    exec (.tcDec code) s =
      .next { s with cw := none, src := none, dst := none, bus := [], rsp := { ticks := some (decTicks code) } } ∧
    (decTicks code).toNat =
      (((code.toNat &&& 0x0F) + (if (code.toNat >>> 3) &&& 0x0E ≠ 0 then 1 else 0)) <<<
        ((code.toNat >>> 3) &&& 0x0E)) % 2 ^ 16

/-- 40_timeoutcodec.md R51 and 41_timeoutcodec_laws.md R62: `TC.ENC` completes from every state with
every tick count; it drives `CODE` with the value of the closed form, which is the value of the loop of
R51, and writes nothing else (the ports are released; the record of accesses, log 12, is empty). Its word
is `01 tttttttt tttttttt`. -/
def Obligations.TcEncDrivesTheCode : Prop :=
  ∀ (ticks : Half) (s : State) (src dst : Option Nat),
    decode ⟨commandWord 0b01#2 ticks, src, dst⟩ = .instr (.tcEnc ticks) ∧
    exec (.tcEnc ticks) s =
      .next { s with cw := none, src := none, dst := none, bus := [], rsp := { code := some (encCode ticks) } } ∧
    (encCode ticks).toNat = closedCode ticks.toNat

/-- 42_hexcodec.md R80: `HX.BYTE` completes from every state with every byte; it drives `CHI` with the
table entry of the upper four bits and `CLO` with that of the lower four, and writes nothing else (the
ports are released; the record of accesses, log 12, is empty). Its word is `10 00000000 bbbbbbbb`. -/
def Obligations.HxByteDrivesTwoCharacters : Prop :=
  ∀ (b : Byte) (s : State) (src dst : Option Nat),
    decode ⟨commandWord 0b10#2 (b.setWidth 16), src, dst⟩ = .instr (.hxByte b) ∧
    ∃ hi lo : Byte,
      exec (.hxByte b) s =
        .next { s with cw := none, src := none, dst := none, bus := [], rsp := { chi := some hi, clo := some lo } } ∧
      s.hexRom.toList[b.toNat / 16]? = some hi ∧ s.hexRom.toList[b.toNat % 16]? = some lo

/-- 42_hexcodec.md R81 with the table of 10_state.md R10: where the table holds its constants, the two
characters are the uppercase hexadecimal digits of the byte, and two bytes that give the same pair are
the same byte. -/
def Obligations.HxByteGivesUppercaseDigitsInjectively : Prop :=
  (∀ (b : Byte) (s : State), s.hexRom = hexDigits →
    ∃ t hi lo, exec (.hxByte b) s = .next t ∧ t.rsp.chi = some hi ∧ t.rsp.clo = some lo ∧
      hi.toNat = (if b.toNat / 16 < 10 then 0x30 + b.toNat / 16 else 0x41 + (b.toNat / 16 - 10)) ∧
      lo.toNat = (if b.toNat % 16 < 10 then 0x30 + b.toNat % 16 else 0x41 + (b.toNat % 16 - 10))) ∧
  (∀ (b b' : Byte) (s s' t t' : State), s.hexRom = hexDigits → s'.hexRom = hexDigits →
    exec (.hxByte b) s = .next t → exec (.hxByte b') s' = .next t' →
    t.rsp.chi = t'.rsp.chi → t.rsp.clo = t'.rsp.clo → b = b')

/-- 42_hexcodec.md R82: an `HX.BUF` inside the caller contract (20_memory.md R29, R30, R26) completes
from every state. For every source byte, as it was before the command, the character of its high nibble
stands at `DST + 2i` and that of its low nibble at `DST + 2i + 1`; every other byte of memory, the source
among them, is unchanged; `COUNT` is `2n` and no other port holds a value; nothing else of the state
changes. Its word is `11 nnnnnnnn nnnnnnnn` with the two side ports. -/
def Obligations.HxBufConvertsTheBuffer : Prop :=
  ∀ (s : State) (src dst : Nat) (n : Half), BufContract s.platform src dst n.toNat →
    decode ⟨commandWord 0b11#2 n, some src, some dst⟩ = .instr (.hxBuf (some src) (some dst) n) ∧
    ∃ t count, exec (.hxBuf (some src) (some dst) n) s = .next t ∧
      t.rsp = { count := some count } ∧ count.toNat = 2 * n.toNat ∧
      (∀ i, i < n.toNat →
        s.hexRom.toList[(s.mem.read (src + i)).toNat / 16]? = some (t.mem.read (dst + 2 * i)) ∧
        s.hexRom.toList[(s.mem.read (src + i)).toNat % 16]? = some (t.mem.read (dst + 2 * i + 1))) ∧
      (∀ a, ¬ (dst ≤ a ∧ a < dst + 2 * n.toNat) → t.mem.read a = s.mem.read a) ∧
      t = { s with cw := none, src := none, dst := none, mem := t.mem, bus := t.bus, rsp := t.rsp }

/-- 42_hexcodec.md R83: with `n = 0` the block performs no access, the side ports are not used, whatever
they hold or if they hold nothing, and the response is `COUNT = 0`. -/
def Obligations.HxBufOfNoBytesOnlyAnswersZero : Prop :=
  ∀ (s : State) (src dst : Option Nat),
    exec (.hxBuf src dst 0#16) s =
      .next { s with cw := none, src := none, dst := none, bus := [], rsp := { count := some 0#17 } }

/-- 42_hexcodec.md R84: the two bytes written for a source byte are the `CHI` and the `CLO` that
`HX.BYTE` answers for that byte from the same state. -/
def Obligations.HxBufIsTheConcatenationOfHxByte : Prop :=
  ∀ (s t : State) (src dst : Nat) (n : Half),
    BufContract s.platform src dst n.toNat → exec (.hxBuf (some src) (some dst) n) s = .next t →
    ∀ i, i < n.toNat → ∃ u, exec (.hxByte (s.mem.read (src + i))) s = .next u ∧
      u.rsp.chi = some (t.mem.read (dst + 2 * i)) ∧ u.rsp.clo = some (t.mem.read (dst + 2 * i + 1))

/-- 42_hexcodec.md R86, in the order of 20_memory.md R25: an `HX.BUF` reads exactly the addresses
`[SRC, SRC+n)`, each once, and writes exactly `[DST, DST+2n)`, each once, one byte at a time, and for
each source byte performs the read, the write of the high and the write of the low character before the
next byte. -/
def Obligations.HxBufAccessesEachAddressOnceInOrder : Prop :=
  ∀ (s t : State) (src dst : Nat) (n : Half),
    BufContract s.platform src dst n.toNat → exec (.hxBuf (some src) (some dst) n) s = .next t →
    t.bus = bufAccesses s.hexRom s.mem src dst n.toNat ∧
    t.bus.filterMap (fun | .read a => some a | .write _ _ => none) =
      (List.range n.toNat).map (fun i => src + i) ∧
    t.bus.filterMap (fun | .read _ => none | .write a _ => some a) =
      (List.range (2 * n.toNat)).map (fun j => dst + j)

/-- 60_exceptions.md R91, R92 and 20_memory.md R29, R30: an `HX.BUF` with an address on both side ports
is refused exactly when it has a byte to convert and is outside the contract. -/
def Obligations.HxBufRefusedExactlyOutsideTheContract : Prop :=
  ∀ (s : State) (src dst : Nat) (n : Half),
    (∃ r, exec (.hxBuf (some src) (some dst) n) s = .refused r) ↔
      (n ≠ 0#16 ∧ ¬ BufContract s.platform src dst n.toNat)

/-- 60_exceptions.md R91, R93: the reason an `HX.BUF` is refused with is a violation it commits, V2 to
V6. -/
def Obligations.HxBufRefusalNamesAViolation : Prop :=
  ∀ (s : State) (src dst : Nat) (n : Half) (r : Refusal),
    exec (.hxBuf (some src) (some dst) n) s = .refused r →
    match r with
    | .addressWrap => 2 ^ s.platform.aw < src + n.toNat ∨ 2 ^ s.platform.aw < dst + 2 * n.toNat
    | .rangesOverlap => ∃ a, src ≤ a ∧ a < src + n.toNat ∧ dst ≤ a ∧ a < dst + 2 * n.toNat
    | .notPlainMemory => ∃ a, deviceAt s.platform a = true ∧
        ((src ≤ a ∧ a < src + n.toNat) ∨ (dst ≤ a ∧ a < dst + 2 * n.toNat))
    | .sourceNotReadable => ∃ i, i < n.toNat ∧ readableAt s.platform (src + i) = false
    | .destinationNotWritable => ∃ j, j < 2 * n.toNat ∧ writableAt s.platform (dst + j) = false
    | _ => False

/-- The MODEL's choice, log 6: an `HX.BUF` with a byte to convert and no value on one of its side ports
is refused under a name of its own (30_encoding.md R37 makes both ports operands of `HX.BUF`). -/
def Obligations.HxBufWithoutAnAddressIsRefused : Prop :=
  ∀ (s : State) (src dst : Option Nat) (n : Half), n ≠ 0#16 → (src = none ∨ dst = none) →
    exec (.hxBuf src dst n) s = .refused .sidePortNotDriven

/-- 20_memory.md R21 and 40_timeoutcodec.md R54: `TC.DEC`, `TC.ENC` and `HX.BYTE` leave every byte of
memory as it was, make no access, and change neither the table, the parameters nor anything outside the
block; the completed command's ports are released. -/
def Obligations.PortOnlyOperationsLeaveMemoryAlone : Prop :=
  ∀ (i : Instr) (s t : State), (∀ src dst n, i ≠ .hxBuf src dst n) → exec i s = .next t →
    (∀ a, t.mem.read a = s.mem.read a) ∧ t.bus = [] ∧ t.hexRom = s.hexRom ∧ t.platform = s.platform ∧
    t.draws = s.draws ∧ t.timeline = s.timeline ∧ t.observed = s.observed ∧
    t.cw = none ∧ t.src = none ∧ t.dst = none

/-- The frame of `HX.BUF` (42_hexcodec.md R82, R86) in every form that completes: whatever address the
`DST` port holds, every byte outside `[DST, DST+2n)` reads as before, and nothing of the state changes
but memory, the released ports, the response and the record of the accesses. -/
def Obligations.HxBufLeavesAllElseAlone : Prop :=
  ∀ (src dst : Option Nat) (n : Half) (s t : State), exec (.hxBuf src dst n) s = .next t →
    (∀ a, (∀ d, dst = some d → ¬ (d ≤ a ∧ a < d + 2 * n.toNat)) → t.mem.read a = s.mem.read a) ∧
    t = { s with cw := none, src := none, dst := none, mem := t.mem, bus := t.bus, rsp := t.rsp }

/-- 10_state.md R12: a completed command drives the ports listed against it and every other port holds no
value, whatever the ports held before. -/
def Obligations.AnOperationDrivesItsOwnPortsOnly : Prop :=
  ∀ (i : Instr) (s t : State), exec i s = .next t →
    match i with
    | .tcDec _ => ∃ v, t.rsp = { ticks := some v }
    | .tcEnc _ => ∃ v, t.rsp = { code := some v }
    | .hxByte _ => ∃ v w, t.rsp = { chi := some v, clo := some w }
    | .hxBuf _ _ _ => ∃ v, t.rsp = { count := some v }

/-- 40_timeoutcodec.md R54, 42_hexcodec.md R81, 70_reset_and_hazards.md R106 ("no operation depends on
history"): what an operation answers, the accesses it makes and the bytes it stores depend on nothing but
its operands, the parameters, the table and the source bytes. -/
def Obligations.NoOperationDependsOnHistory : Prop :=
  ∀ (i : Instr) (s s' t : State), exec i s = .next t →
    s'.platform = s.platform → s'.hexRom = s.hexRom →
    (∀ src dst n, i = .hxBuf (some src) dst n →
      ∀ k, k < n.toNat → s'.mem.read (src + k) = s.mem.read (src + k)) →
    ∃ t', exec i s' = .next t' ∧ t'.rsp = t.rsp ∧ t'.bus = t.bus ∧
      (∀ src dst n, i = .hxBuf src (some dst) n →
        ∀ j, j < 2 * n.toNat → t'.mem.read (dst + j) = t.mem.read (dst + j))

/-! ### The laws of TimeoutCodec (40_timeoutcodec.md, 41_timeoutcodec_laws.md) -/

/-- 41_timeoutcodec_laws.md R60, R61: `shift` is twice the class, `mantissa` the low four bits, and
decode has the closed form; the product is below `2^16`, so that `mod` does nothing, except for the codes
of class 6 with mantissa 15 and of class 7 with mantissa 3 or more. -/
def Obligations.DecodeHasTheClosedForm : Prop :=
  ∀ code : Byte,
    (decShift code).toNat = 2 * classOf code ∧ (decMantissa code).toNat = mantissaOf code ∧
    (decTicks code).toNat = closedTicks code ∧
    (classOf code ≠ 0 → (2 ^ 16 ≤ (mantissaOf code + 1) * 4 ^ classOf code ↔
      (classOf code = 6 ∧ mantissaOf code = 15) ∨ (classOf code = 7 ∧ 3 ≤ mantissaOf code)))

/-- 40_timeoutcodec.md R55: bit 7 of the code is ignored. -/
def Obligations.DecodeIgnoresBitSeven : Prop :=
  ∀ (code : Byte) (s : State), exec (.tcDec code) s = exec (.tcDec (code &&& 0x7F)) s

/-- 40_timeoutcodec.md R56: the 14 codes that wrap, with what they decode to. -/
def Sys2Proof.Machine.wrappingCodes : List (Nat × Nat) :=
  [(0x6F, 0), (0x73, 0), (0x74, 16384), (0x75, 32768), (0x76, 49152), (0x77, 0), (0x78, 16384)] ++
  [(0x79, 32768), (0x7A, 49152), (0x7B, 0), (0x7C, 16384), (0x7D, 32768), (0x7E, 49152), (0x7F, 0)]

/-- 40_timeoutcodec.md R56: the unwrapped product reaches `2^16` exactly for the 14 codes of the table
(bit 7 aside), each decodes to the value of the table, in class 7 that is `((M + 1) mod 4) << 14`, and
encode produces none of them. -/
def Obligations.ExactlyFourteenCodesWrap : Prop :=
  (∀ code : Byte, (classOf code ≠ 0 ∧ 2 ^ 16 ≤ (mantissaOf code + 1) * 4 ^ classOf code) ↔
    ∃ row ∈ wrappingCodes, row.1 = code.toNat % 128) ∧
  (∀ code : Byte, ∀ row ∈ wrappingCodes, row.1 = code.toNat % 128 → (decTicks code).toNat = row.2) ∧
  (∀ code : Byte, classOf code = 7 → (decTicks code).toNat = ((mantissaOf code + 1) % 4) * 2 ^ 14) ∧
  (∀ ticks : Half, ∀ row ∈ wrappingCodes, row.1 ≠ (encCode ticks).toNat)

/-- 41_timeoutcodec_laws.md R74: the decode table, one row for each class, one entry for each
mantissa. -/
def Sys2Proof.Machine.decodeTable : List (List Nat) :=
  [[0, 1, 2, 3, 4, 5, 6, 7, 8, 9, 10, 11, 12, 13, 14, 15],
   [4, 8, 12, 16, 20, 24, 28, 32, 36, 40, 44, 48, 52, 56, 60, 64],
   [16, 32, 48, 64, 80, 96, 112, 128, 144, 160, 176, 192, 208, 224, 240, 256],
   [64, 128, 192, 256, 320, 384, 448, 512, 576, 640, 704, 768, 832, 896, 960, 1024]] ++
  [[256, 512, 768, 1024, 1280, 1536, 1792, 2048, 2304, 2560, 2816, 3072, 3328, 3584, 3840, 4096],
   [1024, 2048, 3072, 4096, 5120, 6144, 7168, 8192, 9216, 10240, 11264, 12288, 13312, 14336, 15360, 16384],
   [4096, 8192, 12288, 16384, 20480, 24576, 28672, 32768, 36864, 40960, 45056, 49152, 53248, 57344, 61440, 0],
   [16384, 32768, 49152, 0, 16384, 32768, 49152, 0, 16384, 32768, 49152, 0, 16384, 32768, 49152, 0]]

/-- 41_timeoutcodec_laws.md R74: every code decodes to its entry of the table, whatever its bit 7; the
largest value is 61440, of code 0x6E. -/
def Obligations.DecodeAgreesWithTheTable : Prop :=
  (∀ code : Byte, (decodeTable.getD (classOf code) []).getD (mantissaOf code) 0 = (decTicks code).toNat) ∧
  (∀ code : Byte, (decTicks code).toNat ≤ 61440) ∧
  (∀ code : Byte, (decTicks code).toNat = 61440 ↔ code.toNat % 128 = 0x6E)

/-- 40_timeoutcodec.md R52, R53: for `ticks >= 16` the loop of encode makes exactly `(s(t) - 2) / 4`
passes (0, 1, 2 or 3), after them `e` is half the total shift `s(t)` (1, 3, 5 or 7) and `t` is
`ticks >> s(t)`, in 1 .. 16, however many more passes are allowed; before them the loop is not over; and
the code is at most 0x72. -/
def Obligations.EncodeLoopEndsAfterAtMostThreePasses : Prop :=
  ∀ ticks : Half, 16 ≤ ticks.toNat →
    (closedShift ticks.toNat - 2) / 4 ≤ 3 ∧
    (∀ passes, (closedShift ticks.toNat - 2) / 4 ≤ passes →
      (encLoop passes 1 (ticks >>> 2)).1.toNat = closedShift ticks.toNat / 2 ∧
      (encLoop passes 1 (ticks >>> 2)).2.toNat = ticks.toNat / 2 ^ closedShift ticks.toNat) ∧
    (∀ passes, passes < (closedShift ticks.toNat - 2) / 4 →
      16 < (encLoop passes 1 (ticks >>> 2)).2.toNat) ∧
    1 ≤ ticks.toNat / 2 ^ closedShift ticks.toNat ∧ ticks.toNat / 2 ^ closedShift ticks.toNat ≤ 16 ∧
    (encCode ticks).toNat ≤ 0x72

/-- 41_timeoutcodec_laws.md R64: encode produces exactly the 64 codes of the list. -/
def Obligations.EncodeProducesExactlyTheImage : Prop :=
  (∀ code : Byte, (∃ ticks : Half, encCode ticks = code) ↔ inImage code.toNat = true) ∧
  ((List.range 256).filter (fun c => inImage c)).length = 64

/-- 41_timeoutcodec_laws.md R75: the rows (code, from, to, decoded) of the encode table for the codes
above 0x0F. -/
def Sys2Proof.Machine.encodeTable : List (Nat × Nat × Nat × Nat) :=
  [(0x13, 16, 19, 16), (0x14, 20, 23, 20), (0x15, 24, 27, 24), (0x16, 28, 31, 28), (0x17, 32, 35, 32),
   (0x18, 36, 39, 36), (0x19, 40, 43, 40), (0x1A, 44, 47, 44), (0x1B, 48, 51, 48), (0x1C, 52, 55, 52),
   (0x1D, 56, 59, 56), (0x1E, 60, 63, 60), (0x1F, 64, 67, 64)] ++
  [(0x30, 68, 127, 64), (0x31, 128, 191, 128), (0x32, 192, 255, 192), (0x33, 256, 319, 256),
   (0x34, 320, 383, 320), (0x35, 384, 447, 384), (0x36, 448, 511, 448), (0x37, 512, 575, 512),
   (0x38, 576, 639, 576), (0x39, 640, 703, 640), (0x3A, 704, 767, 704), (0x3B, 768, 831, 768),
   (0x3C, 832, 895, 832), (0x3D, 896, 959, 896), (0x3E, 960, 1023, 960), (0x3F, 1024, 1087, 1024)] ++
  [(0x50, 1088, 2047, 1024), (0x51, 2048, 3071, 2048), (0x52, 3072, 4095, 3072), (0x53, 4096, 5119, 4096),
   (0x54, 5120, 6143, 5120), (0x55, 6144, 7167, 6144), (0x56, 7168, 8191, 7168), (0x57, 8192, 9215, 8192),
   (0x58, 9216, 10239, 9216), (0x59, 10240, 11263, 10240), (0x5A, 11264, 12287, 11264),
   (0x5B, 12288, 13311, 12288), (0x5C, 13312, 14335, 13312), (0x5D, 14336, 15359, 14336),
   (0x5E, 15360, 16383, 15360), (0x5F, 16384, 17407, 16384)] ++
  [(0x70, 17408, 32767, 16384), (0x71, 32768, 49151, 32768), (0x72, 49152, 65535, 49152)]

/-- 41_timeoutcodec_laws.md R75: a tick count below 16 is its own code and comes back as itself, and for
every row of the table exactly the ticks of its interval have its code, which decodes to its value. -/
def Obligations.EncodeAgreesWithTheTable : Prop :=
  (∀ ticks : Half, ticks.toNat < 16 → (encCode ticks).toNat = ticks.toNat ∧ roundTrip ticks = ticks) ∧
  (∀ row ∈ encodeTable, ∀ ticks : Half,
    ((encCode ticks).toNat = row.1 ↔ row.2.1 ≤ ticks.toNat ∧ ticks.toNat ≤ row.2.2.1) ∧
    ((encCode ticks).toNat = row.1 → (roundTrip ticks).toNat = row.2.2.2))

/-- 41_timeoutcodec_laws.md R65, R66: the caller's round trip, two commands from any state, gives
`t - (t mod 2^s(t))`: encode truncates, never rounds up, and a tick count comes back unchanged exactly
when its low `s(t)` bits are 0. -/
def Obligations.RoundTripOfTwoCommandsTruncates : Prop :=
  ∀ (ticks : Half) (s : State), ∃ s1 code s2 v,
    exec (.tcEnc ticks) s = .next s1 ∧ s1.rsp.code = some code ∧
    exec (.tcDec code) s1 = .next s2 ∧ s2.rsp.ticks = some v ∧
    v.toNat = ticks.toNat - ticks.toNat % 2 ^ closedShift ticks.toNat ∧
    v.toNat = ticks.toNat / 2 ^ closedShift ticks.toNat * 2 ^ closedShift ticks.toNat ∧
    v.toNat ≤ ticks.toNat ∧
    (v = ticks ↔ ticks.toNat % 2 ^ closedShift ticks.toNat = 0)

/-- 41_timeoutcodec_laws.md R67: the ranges (from, to) of `t` with the largest absolute error of each and
the tick count that reaches it first. -/
def Sys2Proof.Machine.errorTable : List (Nat × Nat × Nat × Nat) :=
  [(16, 67, 3, 19), (68, 1087, 63, 127), (1088, 17407, 1023, 2047), (17408, 65535, 16383, 32767)]

/-- 41_timeoutcodec_laws.md R67: no error below 16; in each range no larger absolute error than the
table's, reached first at the table's tick count, where the relative error is the largest too; over all
inputs the largest absolute error is 16383, at 32767, 49151 and 65535 only, and no relative error is
above 16383/32767. -/
def Obligations.RoundTripErrorIsBoundedAsTabulated : Prop :=
  (∀ t : Half, t.toNat ≤ 15 → roundTrip t = t) ∧
  (∀ row ∈ errorTable, ∀ t : Half, row.1 ≤ t.toNat → t.toNat ≤ row.2.1 →
    t.toNat - (roundTrip t).toNat ≤ row.2.2.1 ∧
    (t.toNat < row.2.2.2 → t.toNat - (roundTrip t).toNat < row.2.2.1) ∧
    (t.toNat = row.2.2.2 → t.toNat - (roundTrip t).toNat = row.2.2.1) ∧
    (t.toNat - (roundTrip t).toNat) * row.2.2.2 ≤ row.2.2.1 * t.toNat) ∧
  (∀ t : Half, t.toNat - (roundTrip t).toNat ≤ 16383 ∧
    (t.toNat - (roundTrip t).toNat = 16383 ↔ t.toNat = 32767 ∨ t.toNat = 49151 ∨ t.toNat = 65535) ∧
    (t.toNat - (roundTrip t).toNat) * 32767 ≤ 16383 * t.toNat)

/-- 41_timeoutcodec_laws.md R68: encode is monotone, and not strictly. -/
def Obligations.EncodeIsMonotone : Prop :=
  (∀ t1 t2 : Half, t1 ≤ t2 → encCode t1 ≤ encCode t2) ∧
  (∃ t1 t2 : Half, t1 < t2 ∧ encCode t1 = encCode t2)

/-- 41_timeoutcodec_laws.md R69: the round trip is monotone, and not strictly. -/
def Obligations.RoundTripIsMonotone : Prop :=
  (∀ t1 t2 : Half, t1 ≤ t2 → roundTrip t1 ≤ roundTrip t2) ∧
  (∃ t1 t2 : Half, t1 < t2 ∧ roundTrip t1 = roundTrip t2)

/-- 41_timeoutcodec_laws.md R70: the 61 fixed points of the round trip. -/
def Sys2Proof.Machine.fixedTicks : List Nat :=
  List.range 16 ++ (List.range 13).map (fun k => 16 + 4 * k) ++ (List.range 15).map (fun k => 128 + 64 * k) ++
    (List.range 15).map (fun k => 2048 + 1024 * k) ++ [32768, 49152]

/-- 41_timeoutcodec_laws.md R70: over the image of encode decode never decreases and has exactly three
ties, at 64, 1024 and 16384; the values it takes there are exactly the 61 fixed points of the round
trip. -/
def Obligations.DecodeOnTheImageHasThreeTies : Prop :=
  (∀ c1 c2 : Byte, inImage c1.toNat = true → inImage c2.toNat = true → c1.toNat < c2.toNat →
    decTicks c1 ≤ decTicks c2 ∧
    (decTicks c1 = decTicks c2 ↔
      (c1 = 0x1F ∧ c2 = 0x30) ∨ (c1 = 0x3F ∧ c2 = 0x50) ∨ (c1 = 0x5F ∧ c2 = 0x70))) ∧
  decTicks 0x30 = 64 ∧ decTicks 0x50 = 1024 ∧ decTicks 0x70 = 16384 ∧
  (∀ t : Half, t.toNat ∈ fixedTicks ↔ ∃ c : Byte, inImage c.toNat = true ∧ decTicks c = t) ∧
  (∀ t : Half, roundTrip t = t ↔ t.toNat ∈ fixedTicks) ∧ fixedTicks.length = 61 ∧ fixedTicks.Nodup

/-- 41_timeoutcodec_laws.md R71: over all codes decode is not monotone, by class overlap, by wrap and by
the ignored bit 7; within one class and below the wrap it is strictly increasing in the mantissa. -/
def Obligations.DecodeOverAllCodesIsNotMonotone : Prop :=
  decTicks 0x20 < decTicks 0x1F ∧ decTicks 0x30 < decTicks 0x2F ∧ decTicks 0x6F < decTicks 0x6E ∧
  decTicks 0x80 = decTicks 0x00 ∧
  (∀ c1 c2 : Byte, classOf c1 = classOf c2 → mantissaOf c1 < mantissaOf c2 →
    (mantissaOf c2 + 1) * 4 ^ classOf c2 < 2 ^ 16 → decTicks c1 < decTicks c2)

/-- 41_timeoutcodec_laws.md R72: re-encoding a decoded code gives the code back for exactly 61 codes; the
other three of the image re-encode to the other member of their tie. -/
def Obligations.ReencodingIsTheIdentityOnSixtyOneCodes : Prop :=
  (∀ c : Byte, encCode (decTicks c) = c ↔
    inImage c.toNat = true ∧ c ≠ 0x30 ∧ c ≠ 0x50 ∧ c ≠ 0x70) ∧
  encCode (decTicks 0x30) = 0x1F ∧ encCode (decTicks 0x50) = 0x3F ∧ encCode (decTicks 0x70) = 0x5F ∧
  ((List.range 256).filter (fun c => inImage c && c != 0x30 && c != 0x50 && c != 0x70)).length = 61

/-- 41_timeoutcodec_laws.md R73: the round trip is idempotent on ticks; on codes it is not, for exactly
the tick counts of three ranges, 16380 in all, which encode to 0x30, 0x50, 0x70 and whose round trip
re-encodes to 0x1F, 0x3F, 0x5F. -/
def Obligations.RoundTripIsIdempotentOnTicksNotOnCodes : Prop :=
  (∀ t : Half, roundTrip (roundTrip t) = roundTrip t) ∧
  (∀ t : Half, encCode (roundTrip t) ≠ encCode t ↔
    (68 ≤ t.toNat ∧ t.toNat ≤ 127) ∨ (1088 ≤ t.toNat ∧ t.toNat ≤ 2047) ∨
    (17408 ≤ t.toNat ∧ t.toNat ≤ 32767)) ∧
  (∀ t : Half, encCode (roundTrip t) ≠ encCode t →
    (encCode t = 0x30 ∧ encCode (roundTrip t) = 0x1F) ∨ (encCode t = 0x50 ∧ encCode (roundTrip t) = 0x3F) ∨
    (encCode t = 0x70 ∧ encCode (roundTrip t) = 0x5F)) ∧
  (127 - 68 + 1) + (2047 - 1088 + 1) + (32767 - 17408 + 1) = 16380

/-! ### The machine: steps, issue, completion -/

/-- A step runs the decoded command: when the ports hold a command in progress that decodes to `i`, and
the next thing to happen is the block's running, or nothing else is left to happen (logs 1, 13), the step
is `exec i`, on the state whose timeline has moved on. -/
def Obligations.StepRunsTheCommandInProgress : Prop :=
  ∀ (s : State) (w : CommandWord) (i : Instr), s.cw = some w → decode ⟨w, s.src, s.dst⟩ = .instr i →
    (s.timeline = [] → step s = exec i s) ∧
    (∀ rest, s.timeline = .blockRuns :: rest → step s = exec i { s with timeline := rest })

/-- An idle block does nothing on its own (70_reset_and_hazards.md R106; the two ways to let it run are
the MODEL's, log 1). -/
def Obligations.IdleBlockDoesNothing : Prop :=
  ∀ s : State, s.cw = none →
    (s.timeline = [] → step s = .next s) ∧
    (∀ rest, s.timeline = .blockRuns :: rest → step s = .next { s with timeline := rest })

/-- 10_state.md R11, 70_reset_and_hazards.md R110: an idle block accepts every command inside the contract
and samples the three ports. The MODEL's own, each with its log entry: from then until completion no
response port holds a value (log 9, DEDUCED from R12 and R110), and the record of memory accesses is
emptied (log 12, DEDUCED). Nothing else changes but that the timeline moves on (log 1). -/
def Obligations.IdleBlockAcceptsEveryLegalCommand : Prop :=
  ∀ (s : State) (c : Command) (rest : List Event) (i : Instr),
    s.cw = none → s.timeline = .issue c :: rest → decode c = .instr i →
    (∀ src dst n, i = .hxBuf src dst n →
      n = 0#16 ∨ ∃ a b, src = some a ∧ dst = some b ∧ BufContract s.platform a b n.toNat) →
    step s =
      .next { s with cw := some c.cw, src := c.src, dst := c.dst, rsp := {}, bus := [], timeline := rest }

/-- 30_encoding.md R40, 60_exceptions.md R91 V1, R92: a reserved word is refused when it is issued,
whatever the side ports hold. -/
def Obligations.ReservedWordIsRefusedWhenIssued : Prop :=
  ∀ (s : State) (c : Command) (rest : List Event),
    s.cw = none → s.timeline = .issue c :: rest →
    (c.cw.toNat / 65536 = 0 ∨ c.cw.toNat / 65536 = 2) → c.cw.toNat / 256 % 256 ≠ 0 →
    step s = .refused .reservedWord

/-- 60_exceptions.md R91, R92: an `HX.BUF` outside the contract is refused when it is issued, before any
effect. -/
def Obligations.BrokenContractIsRefusedWhenIssued : Prop :=
  ∀ (s : State) (c : Command) (rest : List Event) (a b : Nat) (n : Half),
    s.cw = none → s.timeline = .issue c :: rest → decode c = .instr (.hxBuf (some a) (some b) n) →
    n ≠ 0#16 → ¬ BufContract s.platform a b n.toNat → ∃ r, step s = .refused r

/-- 70_reset_and_hazards.md R110, 60_exceptions.md R91 V8: a command issued while another is in progress
is refused, whichever they are. -/
def Obligations.IssuingWhileBusyIsRefused : Prop :=
  ∀ (s : State) (c : Command) (rest : List Event),
    s.cw ≠ none → s.timeline = .issue c :: rest → step s = .refused .commandInProgress

/-- 42_hexcodec.md R85, 70_reset_and_hazards.md R116: in every state that meets the invariant, a command
in progress completes as soon as the block runs: the block is idle afterwards and a response port holds
a value. That the block does run is the spec's own assumption (D16; log 13). -/
def Obligations.EveryAcceptedCommandCompletes : Prop :=
  ∀ s : State, s.Inv → s.cw ≠ none → (s.timeline = [] ∨ ∃ rest, s.timeline = .blockRuns :: rest) →
    ∃ t, step s = .next t ∧ t.cw = none ∧ t.rsp ≠ {}

/-- 10_state.md R12, 60_exceptions.md R91 V9, port by port: reading `TICKS`, `CODE`, `CHI`, `CLO` or
`COUNT` while that port holds a value gives exactly that value, marked with that port's name, and changes
nothing of the block; reading it while it holds none is refused, whatever the other ports hold (it does
not read zero). That what is read goes to the front of `observed` is the MODEL's record, log 14. -/
def Obligations.OnlyDrivenPortsCanBeRead : Prop :=
  ∀ (s : State) (rest : List Event),
    (s.timeline = .readPort .ticks :: rest →
      (s.rsp.ticks = none → step s = .refused (.portNotDriven .ticks)) ∧
      (∀ v, s.rsp.ticks = some v →
        step s = .next { s with timeline := rest, observed := .ticks v :: s.observed })) ∧
    (s.timeline = .readPort .code :: rest →
      (s.rsp.code = none → step s = .refused (.portNotDriven .code)) ∧
      (∀ v, s.rsp.code = some v →
        step s = .next { s with timeline := rest, observed := .code v :: s.observed })) ∧
    (s.timeline = .readPort .chi :: rest →
      (s.rsp.chi = none → step s = .refused (.portNotDriven .chi)) ∧
      (∀ v, s.rsp.chi = some v →
        step s = .next { s with timeline := rest, observed := .chi v :: s.observed })) ∧
    (s.timeline = .readPort .clo :: rest →
      (s.rsp.clo = none → step s = .refused (.portNotDriven .clo)) ∧
      (∀ v, s.rsp.clo = some v →
        step s = .next { s with timeline := rest, observed := .clo v :: s.observed })) ∧
    (s.timeline = .readPort .count :: rest →
      (s.rsp.count = none → step s = .refused (.portNotDriven .count)) ∧
      (∀ v, s.rsp.count = some v →
        step s = .next { s with timeline := rest, observed := .count v :: s.observed }))

/-- 20_memory.md R28, 60_exceptions.md R91 V7, R102: while an `HX.BUF` is in progress another agent's
store into either of its ranges, or load from its destination, is a data race and refused. The
MODEL's choice, log 8: a store outside both ranges lands, and a load outside the destination, from the
source too, is observed, at every address of plain memory, whatever `Readable` and `Writable` say. -/
def Obligations.TouchingABufferInUseIsADataRace : Prop :=
  ∀ (s : State) (c : Command) (src dst : Nat) (n : Half) (a : Nat) (rest : List Event),
    commandInProgress s = some c → decode c = .instr (.hxBuf (some src) (some dst) n) →
    (∀ v, s.timeline = .agentWrite a v :: rest →
      ((src ≤ a ∧ a < src + n.toNat) ∨ (dst ≤ a ∧ a < dst + 2 * n.toNat) → step s = .refused .dataRace) ∧
      (¬ ((src ≤ a ∧ a < src + n.toNat) ∨ (dst ≤ a ∧ a < dst + 2 * n.toNat)) →
        plainAt s.platform a = true →
        step s = .next { s with timeline := rest, mem := s.mem.write a v })) ∧
    (s.timeline = .agentRead a :: rest →
      (dst ≤ a ∧ a < dst + 2 * n.toNat → step s = .refused .dataRace) ∧
      (¬ (dst ≤ a ∧ a < dst + 2 * n.toNat) → plainAt s.platform a = true →
        step s =
          .next { s with timeline := rest, observed := .byte a (s.mem.read a) :: s.observed }))

/-- Another agent's access while no `HX.BUF` with a byte to convert is in progress, the block being idle or
performing any other command (20_memory.md R28 puts no condition on it). The MODEL's choice, log 8: a store
to plain memory lands there and nowhere else, a load from plain memory observes the byte, whatever
`Readable` and `Writable` say, and an access outside plain memory is refused. -/
def Obligations.AgentsAccessPlainMemoryFreely : Prop :=
  ∀ (s : State) (a : Nat) (rest : List Event),
    (∀ c src dst n, commandInProgress s = some c → decode c = .instr (.hxBuf src dst n) → n = 0#16) →
    (∀ v, s.timeline = .agentWrite a v :: rest →
      (plainAt s.platform a = true →
        ∃ t, step s = .next t ∧ t.mem.read a = v ∧ (∀ x, x ≠ a → t.mem.read x = s.mem.read x) ∧
          t = { s with timeline := rest, mem := t.mem }) ∧
      (plainAt s.platform a = false → step s = .refused .agentOutsideMemory)) ∧
    (s.timeline = .agentRead a :: rest →
      (plainAt s.platform a = true →
        step s =
          .next { s with timeline := rest, observed := .byte a (s.mem.read a) :: s.observed }) ∧
      (plainAt s.platform a = false → step s = .refused .agentOutsideMemory))

/-! ### Reset (70_reset_and_hazards.md, 10_state.md R19) -/

/-- 70_reset_and_hazards.md R105, R106: reset of an idle block leaves it idle with no value on any port,
and changes neither the table nor memory nor anything outside the block (the record of memory accesses is
emptied, log 12). -/
def Obligations.ResetOfAnIdleBlock : Prop :=
  ∀ (s : State) (rest : List Event), s.cw = none → s.timeline = .reset :: rest →
    step s =
      .next { s with cw := none, src := none, dst := none, rsp := {}, bus := [], timeline := rest }

/-- 70_reset_and_hazards.md R107: reset in the middle of a command abandons it: the block is idle and no
port holds a value (and the record of memory accesses is empty, log 12). For `HX.BUF` each byte of the
destination range then holds a free draw of its own, drawn from where the counter of draws stood (log 10),
and every address outside that range is unchanged; for the other operations nothing else happens. -/
def Obligations.ResetAbandonsTheCommandInProgress : Prop :=
  ∀ (s : State) (c : Command) (i : Instr) (rest : List Event),
    commandInProgress s = some c → decode c = .instr i → contractViolation s.platform i = none →
    s.timeline = .reset :: rest →
    ∃ t, step s = .next t ∧
      t = { s with cw := none, src := none, dst := none, rsp := {}, bus := [], timeline := rest,
                   mem := t.mem, draws := t.draws } ∧
      match i with
      | .hxBuf _ dst n =>
        t.draws = s.draws + 2 * n.toNat ∧
        (∀ d j, dst = some d → j < 2 * n.toNat → t.mem.read (d + j) = Config.freeByte (s.draws + j)) ∧
        (∀ a, (∀ d, dst = some d → ¬ (d ≤ a ∧ a < d + 2 * n.toNat)) → t.mem.read a = s.mem.read a)
      | _ => t.draws = s.draws ∧ t.mem = s.mem

/-- 60_exceptions.md R103: removing and restoring power of an idle block has exactly the effect of reset.
The MODEL's choice, log 11: of a busy block it is refused. -/
def Obligations.PowerCycleOfAnIdleBlockIsReset : Prop :=
  ∀ (s : State) (rest : List Event), s.timeline = .powerCycle :: rest →
    (s.cw = none → step s = step { s with timeline := .reset :: rest }) ∧
    (s.cw ≠ none → step s = .refused .powerLostInProgress)

/-- 10_state.md R10, R19: right after reset, on every platform, with any memory contents and whatever the
outside does next, the table holds the ASCII codes of `0..9`, `A..F`, no command is in progress, no port
holds a value, and memory is as it was launched. -/
def Obligations.ResetLeavesTheBlockIdle : Prop :=
  ∀ (p : Platform) (m : Memory) (tl : List Event),
    (State.launch p m tl).hexRom.toList.map BitVec.toNat = "0123456789ABCDEF".toList.map Char.toNat ∧
    (State.launch p m tl).cw = none ∧ (State.launch p m tl).src = none ∧
    (State.launch p m tl).dst = none ∧ (State.launch p m tl).rsp.ticks = none ∧
    (State.launch p m tl).rsp.code = none ∧ (State.launch p m tl).rsp.chi = none ∧
    (State.launch p m tl).rsp.clo = none ∧ (State.launch p m tl).rsp.count = none ∧
    (State.launch p m tl).mem = m ∧ (State.launch p m tl).platform = p

/-! ### Invariants and whole-machine rules -/

/-- The invariant holds at `State.reset` (10_state.md R19; its platform and its empty memory list are the
MODEL's choice, logs 2 and 3). -/
def Obligations.ResetMeetsTheInvariant : Prop := State.reset.Inv

/-- Every step keeps the invariant: the table holds its constants (10_state.md R10, R19), memory is in
canonical form inside the address space (20_memory.md R20), the response ports hold one operation's
response or nothing (10_state.md R12), an idle block holds no side port, and a command in progress is
inside the contract (60_exceptions.md R92) with no response before its completion
(70_reset_and_hazards.md R110, as log 9 reads it). -/
def Obligations.StepKeepsTheInvariant : Prop :=
  ∀ s t : State, s.Inv → step s = .next t → t.Inv

/-- 10_state.md R10 ("No operation writes `HEXROM`"), 00_scope.md R6: no step, whatever it does, changes
the table or the parameters. -/
def Obligations.NoStepChangesTableOrParameters : Prop :=
  ∀ s t : State, step s = .next t → t.hexRom = s.hexRom ∧ t.platform = s.platform

/-- 10_state.md R18, 20_memory.md R21, R34: a byte of memory changes in a step only if another agent stores
there, or if it lies in the destination range of the `HX.BUF` in progress and the block runs or is
reset. -/
def Obligations.MemoryChangesOnlyByHxBufOrAgents : Prop :=
  ∀ (s t : State) (a : Nat), step s = .next t → t.mem.read a ≠ s.mem.read a →
    (∃ v rest, s.timeline = .agentWrite a v :: rest) ∨
    (∃ c src dst n, commandInProgress s = some c ∧ decode c = .instr (.hxBuf src (some dst) n) ∧
      dst ≤ a ∧ a < dst + 2 * n.toNat ∧
      (s.timeline = [] ∨ (∃ rest, s.timeline = .blockRuns :: rest) ∨
        (∃ rest, s.timeline = .reset :: rest)))

/-- The canonical form does its work: two memories in canonical form that read the same at every address
are the same list, so that equal memories (20_memory.md R20) are equal data. -/
def Obligations.MemoriesThatReadTheSameAreEqual : Prop :=
  ∀ m m' : Memory, m.wf = true → m'.wf = true → (∀ a, m.read a = m'.read a) → m = m'

/-- The MODEL's interface, log 15: the step after `withFetchWord` runs exactly the operation the decoder
reads from the table word. -/
def Obligations.FetchedWordIsTheNextStep : Prop :=
  ∀ (s : State) (nbits w : Nat) (i : Instr), decodeTableWord nbits w = some i →
    ∃ c, decode c = .instr i ∧
      step (s.withFetchWord nbits w) = exec i { s with cw := some c.cw, src := c.src, dst := c.dst }
end

