-- ==== Sys2Proof/Laws/PerInstr.lean ====
section
/-! SUPPORT. The fields of an encoded word, and a statement for all operations with one lemma for each
constructor of `Instr`: the encoder writes a word that selects the operation's own row of
opcode_table.json (30_encoding.md R38). -/

namespace Sys2Proof.Laws

theorem opField_commandWord (op : BitVec 2) (arg : Half) : opField (commandWord op arg) = op := by
  unfold opField commandWord
  ext i hi
  interval_cases i <;> simp

theorem argField_commandWord (op : BitVec 2) (arg : Half) : argField (commandWord op arg) = arg := by
  unfold argField commandWord
  ext i hi
  interval_cases i <;> simp

end Sys2Proof.Laws

namespace Sys2Proof.Laws.EncodeSelectsRow

/-- The encoded word selects the operation's row. -/
def Statement (i : Instr) : Prop := (encodingRow i).selectedBy (encode i).cw = true

/-- The mask of `TC.ENC` and `HX.BUF` keeps the selector of a word. -/
theorem mask_selector (w : CommandWord) : w &&& 0x30000#18 = commandWord (opField w) 0 := by
  unfold commandWord opField
  ext i hi
  have h : (0x30000#18)[i] = decide (16 ≤ i) := by revert i; decide
  rw [BitVec.getElem_and, h]
  by_cases h16 : i < 16
  · simp [h16]
  · simp [h16, show 16 + (i - 16) = i by omega, BitVec.getLsbD_eq_getElem hi,
      show 16 ≤ i by omega, show i ≤ 17 by omega]

/-- The mask of `TC.DEC` and `HX.BYTE` keeps the selector and the upper half of `arg`. -/
theorem mask_selector_high (w : CommandWord) :
    w &&& 0x3FF00#18 = commandWord (opField w) ((argHigh w).setWidth 16 <<< 8) := by
  unfold commandWord opField argHigh argField
  ext i hi
  have h : (0x3FF00#18)[i] = decide (8 ≤ i) := by revert i; decide
  rw [BitVec.getElem_and, h]
  by_cases h8 : i < 8
  · simp [h8, show i < 16 by omega]
  · by_cases h16 : i < 16
    · simp [h16, h8, BitVec.getLsbD_eq_getElem hi, show i - 8 < 8 by omega, show 8 ≤ i by omega,
        show 8 + (i - 8) = i by omega]
    · simp [h8, h16, show 16 + (i - 16) = i by omega, BitVec.getLsbD_eq_getElem hi,
        show ¬ i - 8 < 8 by omega, show 8 ≤ i by omega, show i ≤ 17 by omega]

theorem argHigh_byteOperand (op : BitVec 2) (b : Byte) :
    argHigh (commandWord op (b.setWidth 16)) = 0#8 := by
  rw [argHigh, argField_commandWord]
  ext i hi
  simp

theorem tcDec (code : Byte) : Statement (.tcDec code) := by
  refine decide_eq_true ?_
  show commandWord 0 (code.setWidth 16) &&& 0x3FF00#18 = 0x00000#18
  rw [mask_selector_high, opField_commandWord, argHigh_byteOperand]; decide

theorem tcEnc (ticks : Half) : Statement (.tcEnc ticks) := by
  refine decide_eq_true ?_
  show commandWord 1 ticks &&& 0x30000#18 = 0x10000#18
  rw [mask_selector, opField_commandWord]; decide

theorem hxByte (b : Byte) : Statement (.hxByte b) := by
  refine decide_eq_true ?_
  show commandWord 2 (b.setWidth 16) &&& 0x3FF00#18 = 0x20000#18
  rw [mask_selector_high, opField_commandWord, argHigh_byteOperand]; decide

theorem hxBuf (src dst : Option Nat) (n : Half) : Statement (.hxBuf src dst n) := by
  refine decide_eq_true ?_
  show commandWord 3 n &&& 0x30000#18 = 0x30000#18
  rw [mask_selector, opField_commandWord]; decide

end Sys2Proof.Laws.EncodeSelectsRow
end

