-- ==== Sys2Proof/Laws/Decode.lean ====
section
/-! SUPPORT. The fields of a command word as numbers, and all that decoding can answer. -/

namespace Sys2Proof.Laws

theorem field_values (w : CommandWord) :
    (opField w).toNat = w.toNat / 65536 ∧ (argField w).toNat = w.toNat % 65536 ∧
    (argHigh w).toNat = w.toNat / 256 % 256 ∧ (argLow w).toNat = w.toNat % 256 := by
  have := w.isLt
  simp [opField, argField, argHigh, argLow, Nat.shiftRight_eq_div_pow]
  omega

theorem opField_cases (w : CommandWord) :
    opField w = 0b00#2 ∨ opField w = 0b01#2 ∨ opField w = 0b10#2 ∨ opField w = 0b11#2 := by
  generalize opField w = op
  revert op
  decide

/-- A command that decodes to an operation is of the operation's row. -/
theorem decode_instr_cases {c : Command} {i : Instr} (h : decode c = .instr i) :
    (opField c.cw = 0b00#2 ∧ argHigh c.cw = 0#8 ∧ i = .tcDec (argLow c.cw)) ∨
    (opField c.cw = 0b01#2 ∧ i = .tcEnc (argField c.cw)) ∨
    (opField c.cw = 0b10#2 ∧ argHigh c.cw = 0#8 ∧ i = .hxByte (argLow c.cw)) ∨
    (opField c.cw = 0b11#2 ∧ i = .hxBuf c.src c.dst (argField c.cw)) := by
  unfold decode at h
  rcases opField_cases c.cw with e | e | e | e <;> simp [e] at h ⊢
  · split at h <;> simp_all
  · exact h.symm
  · split at h <;> simp_all
  · exact h.symm

/-- A command that decodes to nothing has a byte operand with a nonzero upper half. -/
theorem decode_reserved_cases {c : Command} {w : CommandWord} (h : decode c = .reservedWord w) :
    w = c.cw ∧ argHigh c.cw ≠ 0#8 ∧ (opField c.cw = 0b00#2 ∨ opField c.cw = 0b10#2) := by
  unfold decode at h
  rcases opField_cases c.cw with e | e | e | e <;> simp [e] at h ⊢ <;> split at h <;> simp_all

end Sys2Proof.Laws
end

