-- ==== Sys2Proof/Laws/Memory.lean ====
section
/-! SUPPORT. The laws of external memory: what a read sees after a write, and that every memory
operation keeps the canonical form and the bounds of the address space. -/

namespace Sys2Proof.Machine

@[simp] theorem Memory.read_nil (a : Nat) : Memory.read [] a = Memory.unlisted := rfl

theorem Memory.read_cons (k : Nat) (v : Byte) (m : Memory) (a : Nat) :
    Memory.read ((k, v) :: m) a = if k = a then v else Memory.read m a := rfl

theorem Memory.read_erase (m : Memory) (a x : Nat) :
    (m.erase a).read x = if x = a then Memory.unlisted else m.read x := by
  induction m with
  | nil => simp [Memory.erase]
  | cons c m ih =>
    obtain ⟨k, v⟩ := c
    by_cases hka : k = a
    · subst hka
      rw [Memory.erase, if_pos rfl, ih, Memory.read_cons]
      by_cases hx : x = k
      · simp [hx]
      · simp [hx, Ne.symm hx]
    · rw [Memory.erase, if_neg hka, Memory.read_cons, Memory.read_cons, ih]
      by_cases hkx : k = x
      · subst hkx; simp [hka]
      · simp [hkx]

theorem Memory.not_mem_erase (m : Memory) (a : Nat) (w : Byte) : (a, w) ∉ m.erase a := by
  induction m with
  | nil => simp [Memory.erase]
  | cons c m ih =>
    obtain ⟨k, v⟩ := c
    by_cases hka : k = a
    · simpa [Memory.erase, hka] using ih
    · simpa [Memory.erase, hka, Ne.symm hka] using ih

theorem Memory.read_place_self (m : Memory) (a : Nat) (v : Byte) (h : ∀ w, (a, w) ∉ m) :
    (m.place a v).read a = v := by
  induction m with
  | nil => simp [Memory.place, Memory.read_cons]
  | cons c m ih =>
    obtain ⟨k, w⟩ := c
    have hk : k ≠ a := fun e => h w (by simp [e])
    by_cases hak : a < k
    · simp [Memory.place, hak, Memory.read_cons]
    · simp [Memory.place, hak, Memory.read_cons, hk, ih (fun w' hw' => h w' (by simp [hw']))]

theorem Memory.read_place_other (m : Memory) (a x : Nat) (v : Byte) (h : x ≠ a) :
    (m.place a v).read x = m.read x := by
  induction m with
  | nil => simp [Memory.place, Memory.read_cons, Ne.symm h]
  | cons c m ih =>
    obtain ⟨k, w⟩ := c
    by_cases hak : a < k
    · simp [Memory.place, hak, Memory.read_cons, Ne.symm h]
    · simp [Memory.place, hak, Memory.read_cons, ih]

/-- The law of plain memory (20_memory.md R26): a read gives the last value written there, and a write
leaves every other cell alone. It holds of any list, canonical or not. -/
theorem Memory.read_write (m : Memory) (a : Nat) (v : Byte) (x : Nat) :
    (m.write a v).read x = if x = a then v else m.read x := by
  unfold Memory.write
  by_cases hx : x = a
  · subst hx
    split
    · next hv => simp [Memory.read_erase, hv]
    · simp [Memory.read_place_self _ _ _ (Memory.not_mem_erase m x)]
  · split
    · simp [Memory.read_erase, hx]
    · simp [Memory.read_place_other _ _ _ _ hx, Memory.read_erase, hx]

@[simp] theorem Memory.read_write_self (m : Memory) (a : Nat) (v : Byte) :
    (m.write a v).read a = v := by simp [Memory.read_write]

theorem Memory.read_write_other (m : Memory) {a x : Nat} (v : Byte) (h : x ≠ a) :
    (m.write a v).read x = m.read x := by simp [Memory.read_write, h]

theorem Memory.wfFrom_mono {lo lo' : Nat} {m : Memory} (h : lo' ≤ lo) (hm : Memory.wfFrom lo m = true) :
    Memory.wfFrom lo' m = true := by
  cases m with
  | nil => rfl
  | cons c m =>
    obtain ⟨k, v⟩ := c
    simp only [Memory.wfFrom, Bool.and_eq_true, decide_eq_true_eq] at hm ⊢
    exact ⟨⟨by omega, hm.1.2⟩, hm.2⟩

theorem Memory.wfFrom_erase {lo : Nat} {m : Memory} (a : Nat) (hm : Memory.wfFrom lo m = true) :
    Memory.wfFrom lo (m.erase a) = true := by
  induction m generalizing lo with
  | nil => rfl
  | cons c m ih =>
    obtain ⟨k, v⟩ := c
    simp only [Memory.wfFrom, Bool.and_eq_true, decide_eq_true_eq] at hm
    by_cases hka : k = a
    · rw [Memory.erase, if_pos hka]
      exact Memory.wfFrom_mono (by omega) (ih hm.2)
    · rw [Memory.erase, if_neg hka]
      simp only [Memory.wfFrom, Bool.and_eq_true, decide_eq_true_eq]
      exact ⟨hm.1, ih hm.2⟩

theorem Memory.wfFrom_place {lo a : Nat} {m : Memory} {v : Byte} (hm : Memory.wfFrom lo m = true)
    (hlo : lo ≤ a) (hv : v ≠ Memory.unlisted) (ha : ∀ w, (a, w) ∉ m) :
    Memory.wfFrom lo (m.place a v) = true := by
  induction m generalizing lo with
  | nil => simp [Memory.place, Memory.wfFrom, hlo, hv]
  | cons c m ih =>
    obtain ⟨k, w⟩ := c
    simp only [Memory.wfFrom, Bool.and_eq_true, decide_eq_true_eq] at hm
    have hk : k ≠ a := fun e => ha w (by simp [e])
    by_cases hak : a < k
    · rw [Memory.place, if_pos hak]
      simp only [Memory.wfFrom, Bool.and_eq_true, decide_eq_true_eq, bne_iff_ne]
      exact ⟨⟨hlo, hv⟩, ⟨by omega, by simpa using hm.1.2⟩, hm.2⟩
    · rw [Memory.place, if_neg hak]
      simp only [Memory.wfFrom, Bool.and_eq_true, decide_eq_true_eq]
      exact ⟨hm.1, ih hm.2 (by omega) (fun w' hw' => ha w' (by simp [hw']))⟩

/-- A write keeps the canonical form. -/
theorem Memory.wf_write {m : Memory} (a : Nat) (v : Byte) (hm : m.wf = true) :
    (m.write a v).wf = true := by
  unfold Memory.wf Memory.write at *
  split
  · exact Memory.wfFrom_erase a hm
  · next hv => exact Memory.wfFrom_place (Memory.wfFrom_erase a hm) (Nat.zero_le _) hv (Memory.not_mem_erase m a)

theorem Memory.below_erase {aw : Nat} {m : Memory} (a : Nat) (hm : m.below aw = true) :
    (m.erase a).below aw = true := by
  induction m with
  | nil => rfl
  | cons c m ih =>
    obtain ⟨k, v⟩ := c
    simp only [Memory.below, List.all_cons, Bool.and_eq_true] at hm ih ⊢
    by_cases hka : k = a
    · rw [Memory.erase, if_pos hka]; exact ih hm.2
    · rw [Memory.erase, if_neg hka, List.all_cons, Bool.and_eq_true]; exact ⟨hm.1, ih hm.2⟩

theorem Memory.below_place {aw a : Nat} {m : Memory} (v : Byte) (ha : a < 2 ^ aw)
    (hm : m.below aw = true) : (m.place a v).below aw = true := by
  induction m with
  | nil => simpa [Memory.place, Memory.below] using ha
  | cons c m ih =>
    obtain ⟨k, w⟩ := c
    simp only [Memory.below, List.all_cons, Bool.and_eq_true, decide_eq_true_eq] at hm ih ⊢
    by_cases hak : a < k
    · simp only [Memory.place, if_pos hak, List.all_cons, Bool.and_eq_true, decide_eq_true_eq]
      exact ⟨ha, hm⟩
    · simp only [Memory.place, if_neg hak, List.all_cons, Bool.and_eq_true, decide_eq_true_eq]
      exact ⟨hm.1, ih hm.2⟩

/-- A write to an address of the address space lists no address outside it. -/
theorem Memory.below_write {aw : Nat} {m : Memory} {a : Nat} (v : Byte) (ha : a < 2 ^ aw)
    (hm : m.below aw = true) : (m.write a v).below aw = true := by
  unfold Memory.write
  split
  · exact Memory.below_erase a hm
  · exact Memory.below_place v ha (Memory.below_erase a hm)

/-- What a read sees after a run of stores from `base` upward. -/
theorem Memory.read_fill (base : Nat) (f : Nat → Byte) (len : Nat) (m : Memory) (x : Nat) :
    (Memory.fill base f len m).read x =
      if base ≤ x ∧ x < base + len then f (x - base) else m.read x := by
  induction len with
  | zero => simp [Memory.fill]
  | succ len ih =>
    rw [Memory.fill, Memory.read_write, ih]
    by_cases hx : x = base + len
    · subst hx; simp
    · rw [if_neg hx]
      by_cases hin : base ≤ x ∧ x < base + len
      · rw [if_pos hin, if_pos ⟨hin.1, by omega⟩]
      · rw [if_neg hin, if_neg (by omega)]

/-- A run of stores keeps the canonical form. -/
theorem Memory.wf_fill {base : Nat} {f : Nat → Byte} {len : Nat} {m : Memory} (hm : m.wf = true) :
    (Memory.fill base f len m).wf = true := by
  induction len with
  | zero => exact hm
  | succ len ih => exact Memory.wf_write _ _ ih

/-- A run of stores inside the address space lists no address outside it. -/
theorem Memory.below_fill {aw base : Nat} {f : Nat → Byte} {len : Nat} {m : Memory}
    (hfit : base + len ≤ 2 ^ aw) (hm : m.below aw = true) :
    (Memory.fill base f len m).below aw = true := by
  induction len with
  | zero => exact hm
  | succ len ih => exact Memory.below_write _ (by omega) (ih (by omega))

end Sys2Proof.Machine
end

