-- ==== Sys2Proof/Laws/State.lean ====
section
/-! SUPPORT. Each field of the state after each shared update of it, so that no proof unfolds a record
update; and which port holds what a read of it gives. -/

namespace Sys2Proof.Machine

@[simp] theorem beginCommand_platform (s : State) : (beginCommand s).platform = s.platform := rfl
@[simp] theorem beginCommand_hexRom (s : State) : (beginCommand s).hexRom = s.hexRom := rfl
@[simp] theorem beginCommand_mem (s : State) : (beginCommand s).mem = s.mem := rfl
@[simp] theorem beginCommand_cw (s : State) : (beginCommand s).cw = s.cw := rfl
@[simp] theorem beginCommand_src (s : State) : (beginCommand s).src = s.src := rfl
@[simp] theorem beginCommand_dst (s : State) : (beginCommand s).dst = s.dst := rfl
@[simp] theorem beginCommand_rsp (s : State) : (beginCommand s).rsp = {} := rfl
@[simp] theorem beginCommand_bus (s : State) : (beginCommand s).bus = [] := rfl
@[simp] theorem beginCommand_draws (s : State) : (beginCommand s).draws = s.draws := rfl
@[simp] theorem beginCommand_timeline (s : State) : (beginCommand s).timeline = s.timeline := rfl
@[simp] theorem beginCommand_observed (s : State) : (beginCommand s).observed = s.observed := rfl

@[simp] theorem completeCommand_platform (r : Response) (s : State) : (completeCommand r s).platform = s.platform := rfl
@[simp] theorem completeCommand_hexRom (r : Response) (s : State) : (completeCommand r s).hexRom = s.hexRom := rfl
@[simp] theorem completeCommand_mem (r : Response) (s : State) : (completeCommand r s).mem = s.mem := rfl
@[simp] theorem completeCommand_cw (r : Response) (s : State) : (completeCommand r s).cw = none := rfl
@[simp] theorem completeCommand_src (r : Response) (s : State) : (completeCommand r s).src = none := rfl
@[simp] theorem completeCommand_dst (r : Response) (s : State) : (completeCommand r s).dst = none := rfl
@[simp] theorem completeCommand_rsp (r : Response) (s : State) : (completeCommand r s).rsp = r := rfl
@[simp] theorem completeCommand_bus (r : Response) (s : State) : (completeCommand r s).bus = s.bus := rfl
@[simp] theorem completeCommand_draws (r : Response) (s : State) : (completeCommand r s).draws = s.draws := rfl
@[simp] theorem completeCommand_timeline (r : Response) (s : State) : (completeCommand r s).timeline = s.timeline := rfl
@[simp] theorem completeCommand_observed (r : Response) (s : State) : (completeCommand r s).observed = s.observed := rfl

@[simp] theorem goIdle_platform (s : State) : (goIdle s).platform = s.platform := rfl
@[simp] theorem goIdle_hexRom (s : State) : (goIdle s).hexRom = s.hexRom := rfl
@[simp] theorem goIdle_mem (s : State) : (goIdle s).mem = s.mem := rfl
@[simp] theorem goIdle_cw (s : State) : (goIdle s).cw = none := rfl
@[simp] theorem goIdle_src (s : State) : (goIdle s).src = none := rfl
@[simp] theorem goIdle_dst (s : State) : (goIdle s).dst = none := rfl
@[simp] theorem goIdle_rsp (s : State) : (goIdle s).rsp = {} := rfl
@[simp] theorem goIdle_bus (s : State) : (goIdle s).bus = [] := rfl
@[simp] theorem goIdle_draws (s : State) : (goIdle s).draws = s.draws := rfl
@[simp] theorem goIdle_timeline (s : State) : (goIdle s).timeline = s.timeline := rfl
@[simp] theorem goIdle_observed (s : State) : (goIdle s).observed = s.observed := rfl

@[simp] theorem memRead_platform (a : Nat) (s : State) : (memRead a s).platform = s.platform := rfl
@[simp] theorem memRead_hexRom (a : Nat) (s : State) : (memRead a s).hexRom = s.hexRom := rfl
@[simp] theorem memRead_mem (a : Nat) (s : State) : (memRead a s).mem = s.mem := rfl
@[simp] theorem memRead_cw (a : Nat) (s : State) : (memRead a s).cw = s.cw := rfl
@[simp] theorem memRead_src (a : Nat) (s : State) : (memRead a s).src = s.src := rfl
@[simp] theorem memRead_dst (a : Nat) (s : State) : (memRead a s).dst = s.dst := rfl
@[simp] theorem memRead_rsp (a : Nat) (s : State) : (memRead a s).rsp = s.rsp := rfl
@[simp] theorem memRead_bus (a : Nat) (s : State) : (memRead a s).bus = s.bus ++ [.read a] := rfl
@[simp] theorem memRead_draws (a : Nat) (s : State) : (memRead a s).draws = s.draws := rfl
@[simp] theorem memRead_timeline (a : Nat) (s : State) : (memRead a s).timeline = s.timeline := rfl
@[simp] theorem memRead_observed (a : Nat) (s : State) : (memRead a s).observed = s.observed := rfl

@[simp] theorem memWrite_platform (a : Nat) (v : Byte) (s : State) : (memWrite a v s).platform = s.platform := rfl
@[simp] theorem memWrite_hexRom (a : Nat) (v : Byte) (s : State) : (memWrite a v s).hexRom = s.hexRom := rfl
@[simp] theorem memWrite_mem (a : Nat) (v : Byte) (s : State) : (memWrite a v s).mem = s.mem.write a v := rfl
@[simp] theorem memWrite_cw (a : Nat) (v : Byte) (s : State) : (memWrite a v s).cw = s.cw := rfl
@[simp] theorem memWrite_src (a : Nat) (v : Byte) (s : State) : (memWrite a v s).src = s.src := rfl
@[simp] theorem memWrite_dst (a : Nat) (v : Byte) (s : State) : (memWrite a v s).dst = s.dst := rfl
@[simp] theorem memWrite_rsp (a : Nat) (v : Byte) (s : State) : (memWrite a v s).rsp = s.rsp := rfl
@[simp] theorem memWrite_bus (a : Nat) (v : Byte) (s : State) : (memWrite a v s).bus = s.bus ++ [.write a v] := rfl
@[simp] theorem memWrite_draws (a : Nat) (v : Byte) (s : State) : (memWrite a v s).draws = s.draws := rfl
@[simp] theorem memWrite_timeline (a : Nat) (v : Byte) (s : State) : (memWrite a v s).timeline = s.timeline := rfl
@[simp] theorem memWrite_observed (a : Nat) (v : Byte) (s : State) : (memWrite a v s).observed = s.observed := rfl

@[simp] theorem drawDestination_platform (dst len : Nat) (s : State) : (drawDestination dst len s).platform = s.platform := rfl
@[simp] theorem drawDestination_hexRom (dst len : Nat) (s : State) : (drawDestination dst len s).hexRom = s.hexRom := rfl
@[simp] theorem drawDestination_mem (dst len : Nat) (s : State) : (drawDestination dst len s).mem = Memory.fill dst (fun j => Config.freeByte (s.draws + j)) len s.mem := rfl
@[simp] theorem drawDestination_cw (dst len : Nat) (s : State) : (drawDestination dst len s).cw = s.cw := rfl
@[simp] theorem drawDestination_src (dst len : Nat) (s : State) : (drawDestination dst len s).src = s.src := rfl
@[simp] theorem drawDestination_dst (dst len : Nat) (s : State) : (drawDestination dst len s).dst = s.dst := rfl
@[simp] theorem drawDestination_rsp (dst len : Nat) (s : State) : (drawDestination dst len s).rsp = s.rsp := rfl
@[simp] theorem drawDestination_bus (dst len : Nat) (s : State) : (drawDestination dst len s).bus = s.bus := rfl
@[simp] theorem drawDestination_draws (dst len : Nat) (s : State) : (drawDestination dst len s).draws = s.draws + len := rfl
@[simp] theorem drawDestination_timeline (dst len : Nat) (s : State) : (drawDestination dst len s).timeline = s.timeline := rfl
@[simp] theorem drawDestination_observed (dst len : Nat) (s : State) : (drawDestination dst len s).observed = s.observed := rfl

@[simp] theorem launch_platform (platform : Platform) (mem : Memory) (timeline : List Event) :
    (State.launch platform mem timeline).platform = platform := rfl
@[simp] theorem launch_hexRom (platform : Platform) (mem : Memory) (timeline : List Event) :
    (State.launch platform mem timeline).hexRom = hexDigits := rfl
@[simp] theorem launch_mem (platform : Platform) (mem : Memory) (timeline : List Event) :
    (State.launch platform mem timeline).mem = mem := rfl
@[simp] theorem launch_cw (platform : Platform) (mem : Memory) (timeline : List Event) :
    (State.launch platform mem timeline).cw = none := rfl
@[simp] theorem launch_src (platform : Platform) (mem : Memory) (timeline : List Event) :
    (State.launch platform mem timeline).src = none := rfl
@[simp] theorem launch_dst (platform : Platform) (mem : Memory) (timeline : List Event) :
    (State.launch platform mem timeline).dst = none := rfl
@[simp] theorem launch_rsp (platform : Platform) (mem : Memory) (timeline : List Event) :
    (State.launch platform mem timeline).rsp = {} := rfl
@[simp] theorem launch_bus (platform : Platform) (mem : Memory) (timeline : List Event) :
    (State.launch platform mem timeline).bus = [] := rfl
@[simp] theorem launch_draws (platform : Platform) (mem : Memory) (timeline : List Event) :
    (State.launch platform mem timeline).draws = 0 := rfl
@[simp] theorem launch_timeline (platform : Platform) (mem : Memory) (timeline : List Event) :
    (State.launch platform mem timeline).timeline = timeline := rfl
@[simp] theorem launch_observed (platform : Platform) (mem : Memory) (timeline : List Event) :
    (State.launch platform mem timeline).observed = [] := rfl

/-! What reading each response port gives. -/

@[simp] theorem Response.at_ticks (r : Response) : r.at .ticks = r.ticks.map .ticks := rfl
@[simp] theorem Response.at_code (r : Response) : r.at .code = r.code.map .code := rfl
@[simp] theorem Response.at_chi (r : Response) : r.at .chi = r.chi.map .chi := rfl
@[simp] theorem Response.at_clo (r : Response) : r.at .clo = r.clo.map .clo := rfl
@[simp] theorem Response.at_count (r : Response) : r.at .count = r.count.map .count := rfl

end Sys2Proof.Machine
end

