-- ==== Sys2Proof/Laws/Ops.lean ====
section
/-! SUPPORT. One lemma for each shared operation that says all it does: the platform's predicates, the
contract check of `HX.BUF`, the loop of `HX.BUF`, the command in progress, the buffers in use. -/

namespace Sys2Proof.Machine

/-! ### Platform predicates -/

theorem plainAt_lt {p : Platform} {a : Nat} (h : plainAt p a = true) : a < 2 ^ p.aw := by
  unfold plainAt regionAt at h
  by_cases ha : a < 2 ^ p.aw
  · exact ha
  · simp [ha] at h

theorem plainAt_of_readable {p : Platform} {a : Nat} (h : readableAt p a = true) :
    plainAt p a = true := by
  unfold readableAt at h
  unfold plainAt
  split <;> simp_all

theorem plainAt_of_writable {p : Platform} {a : Nat} (h : writableAt p a = true) :
    plainAt p a = true := by
  unfold writableAt at h
  unfold plainAt
  split <;> simp_all

theorem not_deviceAt_of_plain {p : Platform} {a : Nat} (h : plainAt p a = true) :
    deviceAt p a = false := by
  unfold plainAt at h
  unfold deviceAt
  split <;> simp_all

theorem allFrom_iff (ok : Nat → Bool) (base len : Nat) :
    allFrom ok base len = true ↔ ∀ i, i < len → ok (base + i) = true := by
  induction len generalizing base with
  | zero => simp [allFrom]
  | succ len ih =>
    simp only [allFrom, Bool.and_eq_true, ih]
    constructor
    · rintro ⟨h0, h⟩ i hi
      cases i with
      | zero => exact h0
      | succ i => have := h i (by omega); rwa [show base + 1 + i = base + (i + 1) by omega] at this
    · intro h
      refine ⟨h 0 (by omega), fun i hi => ?_⟩
      have := h (i + 1) (by omega)
      rwa [show base + (i + 1) = base + 1 + i by omega] at this

theorem inRange_iff (base len a : Nat) : inRange base len a = true ↔ base ≤ a ∧ a < base + len := by
  simp [inRange]

/-! ### The contract of `HX.BUF` -/

theorem sidePortViolation_some (p : Platform) (a b : Nat) (n : Half) :
    sidePortViolation p (some a) (some b) n = bufferViolation p a b n.toNat := by
  unfold sidePortViolation
  by_cases hn : n = 0#16
  · subst hn; simp [bufferViolation]
  · rw [if_neg hn]

@[simp] theorem sidePortViolation_zero (p : Platform) (src dst : Option Nat) :
    sidePortViolation p src dst 0#16 = none := by simp [sidePortViolation]

/-- The check of the contract says what the spec's lines say (20_memory.md R26, R29, R30): it finds no
violation exactly when there is nothing to convert or every line holds. -/
theorem bufferViolation_none_iff (p : Platform) (a b n : Nat) :
    bufferViolation p a b n = none ↔ n = 0 ∨ BufContract p a b n := by
  unfold bufferViolation
  by_cases hn : n = 0
  · simp [hn]
  rw [if_neg hn]
  constructor
  · intro h
    right
    split_ifs at h with hfit hapart hplain hread hwrite
    simp only [Bool.or_eq_true, decide_eq_true_eq, not_or, not_lt, Bool.not_eq_true',
      Bool.not_eq_false, rangesApart] at *
    exact ⟨hfit.1, hfit.2, (allFrom_iff _ _ _).1 hread, (allFrom_iff _ _ _).1 hwrite,
      fun x => by omega⟩
  · rintro (h | ⟨hsrc, hdst, hread, hwrite, hdisj⟩)
    · exact absurd h hn
    have apart : rangesApart a n b (2 * n) = true := by
      have := hdisj (max a b)
      simp only [rangesApart, Bool.or_eq_true, decide_eq_true_eq]
      omega
    have plainSource : allFrom (fun x => !deviceAt p x) a n = true := by
      rw [allFrom_iff]
      intro i hi
      simp [not_deviceAt_of_plain (plainAt_of_readable (hread i hi))]
    have plainDest : allFrom (fun x => !deviceAt p x) b (2 * n) = true := by
      rw [allFrom_iff]
      intro j hj
      simp [not_deviceAt_of_plain (plainAt_of_writable (hwrite j hj))]
    rw [if_neg (by simp; omega), if_neg (by simp [apart]), if_neg (by simp [plainSource, plainDest]),
      if_neg (by simp [(allFrom_iff _ _ _).2 hread]), if_neg (by simp [(allFrom_iff _ _ _).2 hwrite])]

/-- An `HX.BUF` that passes the check moves bytes only between ports that hold an address. -/
theorem ports_of_noViolation {p : Platform} {src dst : Option Nat} {n : Half} (hn : n ≠ 0#16)
    (h : sidePortViolation p src dst n = none) :
    ∃ a b, src = some a ∧ dst = some b ∧ bufferViolation p a b n.toNat = none := by
  unfold sidePortViolation at h
  rw [if_neg hn] at h
  cases src <;> cases dst <;> simp_all

/-- The destination of an `HX.BUF` that passes the check exists. -/
theorem destFits_of_noViolation {p : Platform} {a b n : Nat} (hn : n ≠ 0)
    (h : bufferViolation p a b n = none) : b + 2 * n ≤ 2 ^ p.aw :=
  (((bufferViolation_none_iff p a b n).1 h).resolve_left hn).destFits

/-! ### The loop of `HX.BUF` -/

/-- The loop changes memory and the record of the memory port, nothing else. -/
theorem bufLoop_frame (left sp dp : Nat) (cnt : Count) (s : State) :
    (bufLoop left sp dp cnt s).2 =
      { s with mem := (bufLoop left sp dp cnt s).2.mem, bus := (bufLoop left sp dp cnt s).2.bus } := by
  induction left generalizing sp dp cnt s with
  | zero => rfl
  | succ left ih => rw [bufLoop, ih]; rfl

theorem bufElement_read (sp dp : Nat) (s : State) (x : Nat) :
    (bufElement sp dp s).mem.read x =
      if x = dp + 1 then lowChar s.hexRom (s.mem.read sp)
      else if x = dp then highChar s.hexRom (s.mem.read sp)
      else s.mem.read x := by
  simp [bufElement, memByte, Memory.read_write]

/-- The loop leaves every byte outside the destination range alone. -/
theorem bufLoop_read_outside (left sp dp : Nat) (cnt : Count) (s : State) (x : Nat)
    (hx : ¬ (dp ≤ x ∧ x < dp + 2 * left)) :
    (bufLoop left sp dp cnt s).2.mem.read x = s.mem.read x := by
  induction left generalizing sp dp cnt s with
  | zero => rfl
  | succ left ih =>
    rw [bufLoop, ih _ _ _ _ (by omega), bufElement_read, if_neg (by omega), if_neg (by omega)]

/-- The loop counts two characters for each byte. -/
theorem bufLoop_count (left sp dp : Nat) (cnt : Count) (s : State) :
    (bufLoop left sp dp cnt s).1 = cnt + BitVec.ofNat 17 (2 * left) := by
  induction left generalizing sp dp cnt s with
  | zero => simp [bufLoop]
  | succ left ih =>
    rw [bufLoop, ih]
    apply BitVec.eq_of_toNat_eq
    simp [BitVec.toNat_add]
    omega

/-- Where source and destination share no address, the loop leaves the two characters of every source
byte, as it was at the start, at its two destination addresses. -/
theorem bufLoop_read_inside (left sp dp : Nat) (cnt : Count) (s : State)
    (apart : ∀ a, sp ≤ a → a < sp + left → ¬ (dp ≤ a ∧ a < dp + 2 * left)) (i : Nat) (hi : i < left) :
    (bufLoop left sp dp cnt s).2.mem.read (dp + 2 * i) = highChar s.hexRom (s.mem.read (sp + i)) ∧
    (bufLoop left sp dp cnt s).2.mem.read (dp + 2 * i + 1) = lowChar s.hexRom (s.mem.read (sp + i)) := by
  induction left generalizing sp dp cnt s i with
  | zero => omega
  | succ left ih =>
    rw [bufLoop]
    cases i with
    | zero =>
      rw [bufLoop_read_outside _ _ _ _ _ _ (by omega), bufLoop_read_outside _ _ _ _ _ _ (by omega),
        bufElement_read, bufElement_read]
      simp
    | succ i =>
      have rest := ih (sp + 1) (dp + 2) (cnt + 2#17) (bufElement sp dp s)
        (fun a h1 h2 => by have := apart a (by omega) (by omega); omega) i (by omega)
      have source : (bufElement sp dp s).mem.read (sp + 1 + i) = s.mem.read (sp + (i + 1)) := by
        have := apart (sp + (i + 1)) (by omega) (by omega)
        rw [bufElement_read, if_neg (by omega), if_neg (by omega)]
        congr 1
        omega
      rw [source] at rest
      simpa [show dp + 2 + 2 * i = dp + 2 * (i + 1) by omega,
        show dp + 2 + 2 * i + 1 = dp + 2 * (i + 1) + 1 by omega, bufElement] using rest

/-- Where source and destination share no address, the loop adds its accesses to the record of the
memory port in the order of 20_memory.md R25. -/
theorem bufLoop_bus (left sp dp : Nat) (cnt : Count) (s : State)
    (apart : ∀ a, sp ≤ a → a < sp + left → ¬ (dp ≤ a ∧ a < dp + 2 * left)) :
    (bufLoop left sp dp cnt s).2.bus = s.bus ++ bufAccesses s.hexRom s.mem sp dp left := by
  induction left generalizing sp dp cnt s with
  | zero => simp [bufLoop, bufAccesses]
  | succ left ih =>
    rw [bufLoop, ih _ _ _ _ (fun a h1 h2 => by have := apart a (by omega) (by omega); omega)]
    simp only [bufAccesses, List.range_succ_eq_map, List.flatMap_cons, List.flatMap_map, bufElement,
      memWrite_bus, memRead_bus, memByte, List.append_assoc, memWrite_hexRom, memRead_hexRom]
    congr 1
    simp only [Nat.mul_zero, Nat.add_zero, List.cons_append, List.nil_append, memWrite_mem, memRead_mem,
      List.cons.injEq, true_and]
    refine List.flatMap_congr fun i hi => ?_
    have := apart (sp + (i + 1)) (by have := List.mem_range.1 hi; omega) (by have := List.mem_range.1 hi; omega)
    have hi := List.mem_range.1 hi
    rw [Memory.read_write_other _ _ (by omega), Memory.read_write_other _ _ (by omega),
      show sp + 1 + i = sp + (i + 1) by omega, show dp + 2 + 2 * i = dp + 2 * (i + 1) by omega]

/-- The loop keeps the canonical form of memory. -/
theorem bufLoop_wf {left sp dp : Nat} {cnt : Count} {s : State} (h : s.mem.wf = true) :
    (bufLoop left sp dp cnt s).2.mem.wf = true := by
  induction left generalizing sp dp cnt s with
  | zero => exact h
  | succ left ih => exact ih (Memory.wf_write _ _ (Memory.wf_write _ _ h))

/-- A loop whose destination exists lists no address outside the address space. -/
theorem bufLoop_below {aw left sp dp : Nat} {cnt : Count} {s : State} (hfit : dp + 2 * left ≤ 2 ^ aw)
    (h : s.mem.below aw = true) : (bufLoop left sp dp cnt s).2.mem.below aw = true := by
  induction left generalizing sp dp cnt s with
  | zero => exact h
  | succ left ih =>
    exact ih (by omega) (Memory.below_write _ (by omega) (Memory.below_write _ (by omega) h))

/-! ### What `HX.BUF` answers -/

/-- `HX.BUF` either is refused with the violation it commits, or completes with the state its loop
leaves. -/
theorem execHxBuf_cases (src dst : Option Nat) (n : Half) (s : State) :
    (∃ r, sidePortViolation s.platform src dst n = some r ∧ execHxBuf src dst n s = .refused r) ∨
    (sidePortViolation s.platform src dst n = none ∧
      execHxBuf src dst n s =
        .next (completeCommand (.ofCount (bufLoop n.toNat (src.getD 0) (dst.getD 0) 0#17 (beginCommand s)).1)
          (bufLoop n.toNat (src.getD 0) (dst.getD 0) 0#17 (beginCommand s)).2)) := by
  unfold execHxBuf
  split
  · next r h => exact .inl ⟨r, h, rfl⟩
  · next h => exact .inr ⟨h, rfl⟩

/-! ### The command in progress -/

@[simp] theorem commandInProgress_idle {s : State} (h : s.cw = none) : commandInProgress s = none := by
  simp [commandInProgress, h]

theorem commandInProgress_busy {s : State} {w : CommandWord} (h : s.cw = some w) :
    commandInProgress s = some ⟨w, s.src, s.dst⟩ := by simp [commandInProgress, h]

theorem commandViolation_of_decode {p : Platform} {c : Command} {i : Instr} (h : decode c = .instr i) :
    commandViolation p c = contractViolation p i := by simp [commandViolation, h]

/-! ### The buffers in use -/

/-- The source in use is the source range of the `HX.BUF` in progress. -/
theorem sourceInUse_of_decode {s : State} {c : Command} {src : Nat} {dst : Option Nat} {n : Half}
    (hc : commandInProgress s = some c) (hd : decode c = .instr (.hxBuf (some src) dst n)) (a : Nat) :
    sourceInUse s a = inRange src n.toNat a := by
  simp [sourceInUse, hc, hd]

/-- The destination in use is the destination range of the `HX.BUF` in progress. -/
theorem destInUse_of_decode {s : State} {c : Command} {src : Option Nat} {dst : Nat} {n : Half}
    (hc : commandInProgress s = some c) (hd : decode c = .instr (.hxBuf src (some dst) n)) (a : Nat) :
    destInUse s a = inRange dst (2 * n.toNat) a := by
  simp [destInUse, hc, hd]

/-- Where no `HX.BUF` with a byte to convert is in progress, no buffer is in use. -/
theorem noBufferInUse {s : State}
    (h : ∀ c src dst n, commandInProgress s = some c → decode c = .instr (.hxBuf src dst n) → n = 0#16)
    (a : Nat) : sourceInUse s a = false ∧ destInUse s a = false := by
  constructor
  · unfold sourceInUse
    split
    · next src dst n heq =>
      obtain ⟨c, hc, hd⟩ := Option.map_eq_some_iff.1 heq
      rw [h c _ _ _ hc hd]
      simp [inRange]
    · rfl
  · unfold destInUse
    split
    · next src dst n heq =>
      obtain ⟨c, hc, hd⟩ := Option.map_eq_some_iff.1 heq
      rw [h c _ _ _ hc hd]
      simp [inRange]
    · rfl

end Sys2Proof.Machine
end

