-- ==== Sys2Proof/Laws/Step.lean ====
section
/-! SUPPORT. What a step can do, said once: every next state of `step` is of one of these forms. -/

namespace Sys2Proof.Machine

/-- A block that runs either has nothing to do or runs the decoded command. -/
theorem runBlock_next {s t : State} (h : runBlock s = .next t) :
    (∃ i c, commandInProgress s = some c ∧ decode c = .instr i ∧ exec i s = .next t) ∨
    (commandInProgress s = none ∧ t = s) := by
  unfold runBlock at h
  split at h
  · next hc => injection h with h; exact .inr ⟨hc, h.symm⟩
  · next c hc =>
    split at h
    · next i hi => exact .inl ⟨i, c, hc, hi, h⟩
    · cases h

/-- The forms of a step that answers a next state. -/
inductive StepForm (s t : State) : Prop
  /-- the command in progress is run -/
  | ran (i : Instr) (c : Command) (busy : commandInProgress s = some c) (decoded : decode c = .instr i)
      (run : (s.timeline = [] ∧ exec i s = .next t) ∨
        ∃ rest, s.timeline = .blockRuns :: rest ∧ exec i { s with timeline := rest } = .next t)
  /-- nothing happens but that the timeline moves on -/
  | idle (free : commandInProgress s = none) (rest : List Event) (same : t = { s with timeline := rest })
  /-- a command is accepted -/
  | issued (c : Command) (rest : List Event) (free : s.cw = none) (head : s.timeline = .issue c :: rest)
      (legal : commandViolation s.platform c = none)
      (next : t = { s with timeline := rest, cw := some c.cw, src := c.src, dst := c.dst, rsp := {}, bus := [] })
  /-- a port or a byte of memory is read -/
  | observed (o : Observation) (rest : List Event)
      (next : t = { s with timeline := rest, observed := o :: s.observed })
  /-- another agent stores a byte -/
  | stored (a : Nat) (v : Byte) (rest : List Event) (head : s.timeline = .agentWrite a v :: rest)
      (plain : plainAt s.platform a = true)
      (next : t = { s with timeline := rest, mem := s.mem.write a v })
  /-- reset or power, with no destination to lose -/
  | cleared (rest : List Event) (next : t = goIdle { s with timeline := rest })
  /-- reset in the middle of an `HX.BUF` -/
  | abandoned (c : Command) (src : Option Nat) (dst : Nat) (n : Half) (rest : List Event)
      (head : s.timeline = .reset :: rest) (busy : commandInProgress s = some c)
      (decoded : decode c = .instr (.hxBuf src (some dst) n))
      (legal : commandViolation s.platform c = none)
      (next : t = goIdle (drawDestination dst (2 * n.toNat) { s with timeline := rest }))

theorem step_form {s t : State} (h : step s = .next t) : StepForm s t := by
  unfold step at h
  split at h
  · next ht =>
    rcases runBlock_next h with ⟨i, c, hc, hd, he⟩ | ⟨hc, rfl⟩
    · exact .ran i c hc hd (.inl ⟨ht, he⟩)
    · exact .idle hc t.timeline rfl
  · next e rest ht =>
    cases e with
    | issue c =>
      simp only [handleEvent, issue] at h
      split at h
      · cases h
      · next hw =>
        split at h
        · cases h
        · next hv => injection h with h; exact .issued c rest (by simpa using hw) ht hv h.symm
    | blockRuns =>
      rcases runBlock_next h with ⟨i, c, hc, hd, he⟩ | ⟨hc, h⟩
      · exact .ran i c hc hd (.inr ⟨rest, ht, he⟩)
      · exact .idle hc rest h
    | readPort p =>
      simp only [handleEvent, readPort] at h
      split at h
      · next o _ => injection h with h; exact .observed o rest h.symm
      · cases h
    | agentWrite a v =>
      simp only [handleEvent, agentWrite] at h
      split at h
      · cases h
      · split at h
        · next hp => injection h with h; exact .stored a v rest ht hp h.symm
        · cases h
    | agentRead a =>
      simp only [handleEvent, agentRead] at h
      split at h
      · cases h
      · split at h
        · injection h with h; exact .observed _ rest h.symm
        · cases h
    | reset =>
      simp only [handleEvent, applyReset] at h
      split at h
      · injection h with h; exact .cleared rest h.symm
      · next c hc =>
        split at h
        · cases h
        · next hv =>
          split at h
          · next src dst n hd => injection h with h; exact .abandoned c src dst n rest ht hc hd hv h.symm
          · injection h with h; exact .cleared rest h.symm
    | powerCycle =>
      simp only [handleEvent, powerCycle] at h
      split at h
      · cases h
      · injection h with h; exact .cleared rest h.symm

end Sys2Proof.Machine
end

