-- ==== Sys2Proof/Tests/Slice0.lean ====
section
/-! SUPPORT. Tests of the model on single steps, with every expected value from 95_test_vectors.md or
from the rule a test names, and a witness for the hypotheses of every obligation that has some. -/

namespace Sys2Proof.Tests

open Sys2Proof Sys2Proof.Machine

/-! ### Helpers -/

/-- The next state of an outcome. -/
def nextOf : Outcome → Option State
  | .next s => some s
  | _ => none

/-- The reason of a refusal. -/
def refusalOf : Outcome → Option Refusal
  | .refused r => some r
  | _ => none

/-- The response of a next state. -/
def rspOf (o : Outcome) : Option Response := (nextOf o).map (fun s => s.rsp)

/-- The bytes of a next state at `len` addresses from `base` upward. -/
def bytesOf (o : Outcome) (base len : Nat) : Option (List Byte) :=
  (nextOf o).map (fun s => (List.range len).map (fun j => s.mem.read (base + j)))

/-- The block after reset on the platform of the scripts, with some memory and a timeline. -/
def at0 (mem : Memory) (tl : List Event) : State := State.launch scriptPlatform mem tl

/-- A command in progress. -/
def busy (c : Command) (s : State) : State := { s with cw := some c.cw, src := c.src, dst := c.dst }

/-- The caller is about to read a port, with some response on the ports. -/
def reads (p : ResponsePort) (r : Response) : State := { at0 [] [.readPort p] with rsp := r }

/-- `HX.BUF 0x100, 0x200, 2` as a command (vector B1). -/
def b1 : Command := ⟨0x30002, some 0x100, some 0x200⟩

/-- A platform with a read-only, a write-only and a device region, for the refusals F7, F8 and V6. -/
def patchy : Platform :=
  ⟨16, [⟨0x100, 1, .plain, true, false⟩, ⟨0x101, 1, .plain, false, true⟩, ⟨0x800, 16, .device, true, true⟩,
    ⟨0x200, 3, .plain, true, true⟩, ⟨0x400, 64, .plain, true, true⟩]⟩

/-! ### Well-formedness: an ill-formed term for each check -/

theorem test_wf_refuses_no_address_bits : (⟨0, []⟩ : Platform).wf = false := by decide
theorem test_wf_refuses_region_past_the_end :
    (⟨16, [⟨0xFFFF, 2, .plain, true, true⟩]⟩ : Platform).wf = false := by decide
theorem test_wf_refuses_wide_source : (Instr.hxBuf (some 65536) (some 0) 1).wf 16 = false := by decide
theorem test_wf_refuses_wide_destination : (Instr.hxBuf none (some 65536) 1).wf 16 = false := by decide
theorem test_wf_accepts : (Instr.hxBuf (some 65535) (some 0) 1).wf 16 = true ∧ scriptPlatform.wf = true := by
  decide

/-! ### Decoding: words written out bit by bit from 30_encoding.md R38 -/

theorem test_decode_tcDec : decode ⟨0b00_00000000_10111110#18, some 7, none⟩ = .instr (.tcDec 0xBE) := by
  decide
theorem test_decode_tcEnc : decode ⟨0b01_00010010_00110100#18, none, none⟩ = .instr (.tcEnc 0x1234) := by
  decide
theorem test_decode_hxByte : decode ⟨0b10_00000000_10011010#18, none, none⟩ = .instr (.hxByte 0x9A) := by
  decide
theorem test_decode_hxBuf :
    decode ⟨0b11_10000000_00000001#18, some 5, none⟩ = .instr (.hxBuf (some 5) none 0x8001) := by decide
/-- 95_test_vectors.md F1, F2. -/
theorem test_decode_reserved :
    decode ⟨0x00100, none, none⟩ = .reservedWord 0x00100 ∧
    decode ⟨0x28000, none, none⟩ = .reservedWord 0x28000 := by decide
theorem test_decodeTableWord :
    decodeTableWord 24 0x00000 = some (.tcDec 0) ∧ decodeTableWord 24 0x10000 = some (.tcEnc 0) ∧
    decodeTableWord 24 0x20000 = some (.hxByte 0) ∧
    decodeTableWord 24 0x30000 = some (.hxBuf (some 0) (some 0) 0) ∧
    decodeTableWord 24 0x00100 = none ∧ decodeTableWord 24 0x40000 = none := by decide

/-! ### The operations -/

/-- 95_test_vectors.md section 2: bit 7 ignored and the scale, and a wrap. -/
theorem test_tcDec_ignores_bit7 : rspOf (exec (.tcDec 0xBE) State.reset) = some { ticks := some 960 } := by
  decide
theorem test_tcDec_wraps : rspOf (exec (.tcDec 0x74) State.reset) = some { ticks := some 16384 } := by decide

/-- 95_test_vectors.md section 3: the class boundary at 68, and the largest input. -/
theorem test_tcEnc_boundary : rspOf (exec (.tcEnc 68) State.reset) = some { code := some 0x30 } := by decide
theorem test_tcEnc_largest : rspOf (exec (.tcEnc 65535) State.reset) = some { code := some 0x72 } := by decide

/-- 95_test_vectors.md section 5: the digit/letter boundary, nibbles not swapped. -/
theorem test_hxByte_digit_letter :
    rspOf (exec (.hxByte 0x9A) State.reset) = some { chi := some 0x39, clo := some 0x41 } := by decide
theorem test_hxByte_not_swapped :
    rspOf (exec (.hxByte 0xF0) State.reset) = some { chi := some 0x46, clo := some 0x30 } := by decide

/-- 95_test_vectors.md B2 (the byte after the text is unchanged), and B6 (the range ends at the last
cell). -/
theorem test_hxBuf_text :
    bytesOf (exec (.hxBuf (some 0x100) (some 0x200) 5)
      (at0 [(0x101, 0x0F), (0x102, 0xF0), (0x103, 0xFF), (0x104, 0x9A), (0x20A, 0xEE)] [])) 0x200 11 =
    some [0x30, 0x30, 0x30, 0x46, 0x46, 0x30, 0x46, 0x46, 0x39, 0x41, 0xEE] := by decide
theorem test_hxBuf_last_cells :
    bytesOf (exec (.hxBuf (some 0xFFFD) (some 0xFFFE) 1) (at0 [(0xFFFD, 0x3E)] [])) 0xFFFD 3 =
    some [0x3E, 0x33, 0x45] := by decide

/-- The step after `withFetchWord` runs each row's operation from reset. -/
theorem test_fetch_runs_every_row :
    rspOf (step (State.reset.withFetchWord 24 0x0003E)) = some { ticks := some 960 } ∧
    rspOf (step (State.reset.withFetchWord 24 0x103E8)) = some { code := some 0x3E } ∧
    rspOf (step (State.reset.withFetchWord 24 0x200DE)) = some { chi := some 0x44, clo := some 0x45 } ∧
    rspOf (step (State.reset.withFetchWord 24 0x30002)) = some { count := some 4 } := by decide

/-! ### Witnesses: encoding and operations -/

/-- `EncodeOfDecodeIsTheWord`, `OperandsAreSlicesOfTheWord`: a legal command of each row, operands at the
top of their range. -/
theorem witness_decode_answers :
    decode ⟨0x000FF, none, none⟩ = .instr (.tcDec 0xFF) ∧ decode ⟨0x1FFFF, none, none⟩ = .instr (.tcEnc 0xFFFF) ∧
    decode ⟨0x200FF, none, none⟩ = .instr (.hxByte 0xFF) ∧
    decode ⟨0x3FFFF, some 1, some 2⟩ = .instr (.hxBuf (some 1) (some 2) 0xFFFF) := by decide

theorem contract_of_check {p : Platform} {a b n : Nat} (hn : n ≠ 0) (h : bufferViolation p a b n = none) :
    BufContract p a b n := ((bufferViolation_none_iff p a b n).1 h).resolve_left hn

theorem no_contract_of_check {p : Platform} {a b n : Nat} (h : bufferViolation p a b n ≠ none) :
    ¬ BufContract p a b n := fun hc => h ((bufferViolation_none_iff p a b n).2 (.inr hc))

/-- `HxBufConvertsTheBuffer`: the buffers of B1, adjacent ones (B5), and ones that end at the last cell
(B6). -/
theorem witness_contract :
    BufContract State.reset.platform 0x100 0x200 2 ∧ BufContract State.reset.platform 0x100 0x102 2 ∧
    BufContract State.reset.platform 0xFFFD 0xFFFE 1 :=
  ⟨contract_of_check (by decide) (by decide), contract_of_check (by decide) (by decide),
    contract_of_check (by decide) (by decide)⟩

/-- `HxBufIsTheConcatenationOfHxByte`, `HxBufAccessesEachAddressOnceInOrder`, `HxBufLeavesAllElseAlone`,
`NoOperationDependsOnHistory`, `AnOperationDrivesItsOwnPortsOnly`: an `HX.BUF` that completes, with and
without a byte to convert. -/
theorem witness_hxBuf_completes :
    (BufContract State.reset.platform 0x100 0x200 (2 : Half).toNat ∧
      ∃ t, exec (.hxBuf (some 0x100) (some 0x200) 2) State.reset = .next t) ∧
    ∃ t, exec (.hxBuf none none 0) State.reset = .next t :=
  ⟨⟨witness_contract.1, _, rfl⟩, _, rfl⟩

/-- `PortOnlyOperationsLeaveMemoryAlone`, `AnOperationDrivesItsOwnPortsOnly`,
`HxByteGivesUppercaseDigitsInjectively`, `NoOperationDependsOnHistory`: the other three complete, the
table holding its constants. -/
theorem witness_port_only_completes :
    (∃ t, exec (.tcDec 0xFF) State.reset = .next t) ∧ (∃ t, exec (.tcEnc 0) State.reset = .next t) ∧
    (State.reset.hexRom = hexDigits ∧ ∃ t, exec (.hxByte 0xFF) State.reset = .next t) ∧
    (∀ src dst n, Instr.tcDec 0xFF ≠ .hxBuf src dst n) :=
  ⟨⟨_, rfl⟩, ⟨_, rfl⟩, ⟨rfl, _, rfl⟩, by simp⟩

/-- `NoOperationDependsOnHistory`: two states that agree on what an `HX.BUF` reads and differ elsewhere,
in memory, in the response ports and in the timeline. -/
theorem witness_two_histories :
    ∃ s s' : State, s ≠ s' ∧ s'.platform = s.platform ∧ s'.hexRom = s.hexRom ∧
      (∀ k, k < (1 : Half).toNat → s'.mem.read (0x100 + k) = s.mem.read (0x100 + k)) ∧
      ∃ t, exec (.hxBuf (some 0x100) (some 0x200) 1) s = .next t :=
  ⟨at0 [(0x100, 0xDE)] [], { at0 [(0x100, 0xDE), (0x300, 1)] [.reset] with rsp := { ticks := some 5 } },
    by decide, rfl, rfl, by decide, _, rfl⟩

/-- `HxBufRefusalNamesAViolation`, `HxBufRefusedExactlyOutsideTheContract`, at the boundary of each
clause: F5, F6 (V4), F3, F4 (V5), a device cell (V6), F8 (V2), F7 (V3). -/
theorem witness_each_refusal :
    refusalOf (exec (.hxBuf (some 0x100) (some 0xFFFE) 2) State.reset) = some .addressWrap ∧
    refusalOf (exec (.hxBuf (some 0xFFFF) (some 0x200) 2) State.reset) = some .addressWrap ∧
    refusalOf (exec (.hxBuf (some 0x100) (some 0x101) 2) State.reset) = some .rangesOverlap ∧
    refusalOf (exec (.hxBuf (some 0x103) (some 0x100) 2) State.reset) = some .rangesOverlap ∧
    refusalOf (exec (.hxBuf (some 0x100) (some 0x80F) 1) (State.launch patchy [] [])) = some .notPlainMemory ∧
    refusalOf (exec (.hxBuf (some 0x100) (some 0x400) 2) (State.launch patchy [] [])) = some .sourceNotReadable ∧
    refusalOf (exec (.hxBuf (some 0x400) (some 0x200) 2) (State.launch patchy [] [])) =
      some .destinationNotWritable := by decide

/-- `HxBufWithoutAnAddressIsRefused`: either port without a value. -/
theorem witness_no_address :
    (1 : Half) ≠ 0#16 ∧ refusalOf (exec (.hxBuf none (some 0) 1) State.reset) = some .sidePortNotDriven ∧
    refusalOf (exec (.hxBuf (some 0) none 1) State.reset) = some .sidePortNotDriven := by decide

/-- `EncodeLoopEndsAfterAtMostThreePasses`: the smallest tick count it speaks of, and the last one
without and the first one with each number of passes. -/
theorem witness_encode_loop :
    16 ≤ (16 : Half).toNat ∧ closedShift 67 = 2 ∧ closedShift 68 = 6 ∧ closedShift 1087 = 6 ∧
    closedShift 1088 = 10 ∧ closedShift 17407 = 10 ∧ closedShift 17408 = 14 ∧ closedShift 65535 = 14 := by
  decide

/-- The statements on the laws of TimeoutCodec, for the hypotheses inside them: two codes of the image in
order, tied and not; two codes of a class below the wrap, the topmost; a code of class 7; the edges of
the error table and of the identity region; two tick counts in order; a code that re-encodes to another. -/
theorem witness_codec_hypotheses :
    (inImage 0x1F = true ∧ inImage 0x30 = true ∧ decTicks 0x1F = decTicks 0x30) ∧
    (inImage 0x71 = true ∧ inImage 0x72 = true ∧ decTicks 0x71 ≠ decTicks 0x72) ∧
    (classOf 0x71 = classOf 0x72 ∧ mantissaOf 0x71 < mantissaOf 0x72 ∧
      (mantissaOf 0x72 + 1) * 4 ^ classOf 0x72 < 2 ^ 16) ∧
    classOf 0xFF = 7 ∧ (15 : Half).toNat < 16 ∧ (15 : Half).toNat ≤ 15 ∧
    (∀ row ∈ errorTable, row.1 ≤ (BitVec.ofNat 16 row.2.2.2).toNat ∧
      (BitVec.ofNat 16 row.2.2.2).toNat ≤ row.2.1) ∧
    (16 : Half) ≤ 17 ∧ encCode (roundTrip 68) ≠ encCode 68 ∧ (encCode 17).toNat = 0x13 := by decide

/-! ### Witnesses: the machine -/

/-- `StepRunsTheCommandInProgress`, both clauses. -/
theorem witness_busy_block :
    (∃ s : State, s.cw = some 0x0003E ∧ decode ⟨0x0003E, s.src, s.dst⟩ = .instr (.tcDec 0x3E) ∧
      s.timeline = []) ∧
    (∃ s : State, s.cw = some 0x0003E ∧ decode ⟨0x0003E, s.src, s.dst⟩ = .instr (.tcDec 0x3E) ∧
      s.timeline = .blockRuns :: []) :=
  ⟨⟨busy ⟨0x0003E, none, none⟩ (at0 [] []), by decide⟩,
    ⟨busy ⟨0x0003E, none, none⟩ (at0 [] [.blockRuns]), by decide⟩⟩

/-- `IdleBlockDoesNothing`, both clauses. -/
theorem witness_idle_block :
    ((at0 [] []).cw = none ∧ (at0 [] []).timeline = []) ∧
    ((at0 [] [.blockRuns]).cw = none ∧ (at0 [] [.blockRuns]).timeline = .blockRuns :: []) := by decide

/-- `IdleBlockAcceptsEveryLegalCommand`: a port-only command, an `HX.BUF` of no bytes without side ports,
and B1. -/
theorem witness_legal_issue :
    (∃ (s : State) (c : Command), s.cw = none ∧ s.timeline = .issue c :: [] ∧ decode c = .instr (.tcEnc 16)) ∧
    (∃ (s : State) (c : Command), s.cw = none ∧ s.timeline = .issue c :: [] ∧ decode c = .instr (.hxBuf none none 0)) ∧
    (∃ s : State, s.cw = none ∧ s.timeline = .issue b1 :: [] ∧
      decode b1 = .instr (.hxBuf (some 0x100) (some 0x200) 2) ∧ BufContract s.platform 0x100 0x200 2) :=
  ⟨⟨at0 [] [.issue ⟨0x10010, none, none⟩], ⟨0x10010, none, none⟩, rfl, rfl, by decide⟩,
    ⟨at0 [] [.issue ⟨0x30000, none, none⟩], ⟨0x30000, none, none⟩, rfl, rfl, by decide⟩,
    ⟨at0 [] [.issue b1], rfl, rfl, by decide, witness_contract.1⟩⟩

/-- `ReservedWordIsRefusedWhenIssued`: the lowest reserved word of `TC.DEC` (F1) and the highest of
`HX.BYTE`. -/
theorem witness_reserved_issue :
    (∃ (s : State) (c : Command), s.cw = none ∧ s.timeline = .issue c :: [] ∧ c.cw.toNat / 65536 = 0 ∧
      c.cw.toNat / 256 % 256 ≠ 0 ∧ refusalOf (step s) = some .reservedWord) ∧
    (∃ (s : State) (c : Command), s.cw = none ∧ s.timeline = .issue c :: [] ∧ c.cw.toNat / 65536 = 2 ∧
      c.cw.toNat / 256 % 256 ≠ 0 ∧ refusalOf (step s) = some .reservedWord) :=
  ⟨⟨at0 [] [.issue ⟨0x00100, none, none⟩], ⟨0x00100, none, none⟩, rfl, rfl, by decide⟩,
    ⟨at0 [] [.issue ⟨0x2FFFF, none, none⟩], ⟨0x2FFFF, none, none⟩, rfl, rfl, by decide⟩⟩

/-- `BrokenContractIsRefusedWhenIssued`: F3. -/
theorem witness_broken_issue :
    ∃ (s : State) (c : Command), s.cw = none ∧ s.timeline = .issue c :: [] ∧
      decode c = .instr (.hxBuf (some 0x100) (some 0x101) 2) ∧ ¬ BufContract s.platform 0x100 0x101 2 ∧
      refusalOf (step s) = some .rangesOverlap :=
  ⟨at0 [] [.issue ⟨0x30002, some 0x100, some 0x101⟩], ⟨0x30002, some 0x100, some 0x101⟩, rfl, rfl, by decide,
    no_contract_of_check (by decide), by decide⟩

/-- `IssuingWhileBusyIsRefused`. -/
theorem witness_early_issue :
    ∃ s : State, s.cw ≠ none ∧ s.timeline = .issue b1 :: [] ∧
      refusalOf (step s) = some .commandInProgress :=
  ⟨busy b1 (at0 [] [.issue b1]), by decide⟩

/-- A busy state that meets the invariant: B1 in progress. -/
theorem busy_b1_inv (mem : Memory) (tl : List Event) (hwf : mem.wf = true) (hb : mem.below 16 = true) :
    (busy b1 (at0 mem tl)).Inv where
  platformOk := by show scriptPlatform.wf = true; decide
  romOk := rfl
  memWf := hwf
  memBelow := hb
  rspLegal := rfl
  idlePorts := fun h => by cases h
  busyEmpty := fun _ => rfl
  busyLegal := fun c h => by
    have : c = b1 := by simpa [busy, commandInProgress, b1] using h.symm
    subst this
    show commandViolation scriptPlatform b1 = none
    decide

/-- `EveryAcceptedCommandCompletes`, both ways to run; `StepKeepsTheInvariant` from a busy state. -/
theorem witness_accepted :
    (∃ s : State, s.Inv ∧ s.cw ≠ none ∧ s.timeline = [] ∧ ∃ t, step s = .next t) ∧
    (∃ s : State, s.Inv ∧ s.cw ≠ none ∧ s.timeline = .blockRuns :: [] ∧ ∃ t, step s = .next t) :=
  ⟨⟨busy b1 (at0 [] []), busy_b1_inv [] [] rfl rfl, by decide, rfl, _, rfl⟩,
    ⟨busy b1 (at0 [] [.blockRuns]), busy_b1_inv [] _ rfl rfl, by decide, rfl, _, rfl⟩⟩

/-- `OnlyDrivenPortsCanBeRead`: each port with a value, `CHI` and `CLO` with two that differ, and each port
without one while others hold values (F10: `TICKS` after `TC.ENC 5`). -/
theorem witness_port_reads :
    (nextOf (step (reads .ticks { ticks := some 992 }))).map (fun t => t.observed) = some [.ticks 992] ∧
    (nextOf (step (reads .code { code := some 5 }))).map (fun t => t.observed) = some [.code 5] ∧
    (nextOf (step (reads .chi { chi := some 0x44, clo := some 0x45 }))).map (fun t => t.observed) =
      some [.chi 0x44] ∧
    (nextOf (step (reads .clo { chi := some 0x44, clo := some 0x45 }))).map (fun t => t.observed) =
      some [.clo 0x45] ∧
    (nextOf (step (reads .count { count := some 4 }))).map (fun t => t.observed) = some [.count 4] ∧
    refusalOf (step (reads .ticks { code := some 5 })) = some (.portNotDriven .ticks) ∧
    refusalOf (step (reads .code { ticks := some 992 })) = some (.portNotDriven .code) ∧
    refusalOf (step (reads .chi { count := some 4 })) = some (.portNotDriven .chi) ∧
    refusalOf (step (reads .clo { count := some 4 })) = some (.portNotDriven .clo) ∧
    refusalOf (step (reads .count { chi := some 0x44, clo := some 0x45 })) =
      some (.portNotDriven .count) := by decide

/-- `TouchingABufferInUseIsADataRace`: B1 in progress. F9 and its nearest accepted, the first and last
bytes of both ranges, and the first byte past each. -/
theorem witness_races :
    commandInProgress (busy b1 (at0 [] [])) = some b1 ∧
    decode b1 = .instr (.hxBuf (some 0x100) (some 0x200) 2) ∧
    refusalOf (step (busy b1 (at0 [] [.agentWrite 0x202 1]))) = some .dataRace ∧
    refusalOf (step (busy b1 (at0 [] [.agentWrite 0x203 1]))) = some .dataRace ∧
    refusalOf (step (busy b1 (at0 [] [.agentWrite 0x100 1]))) = some .dataRace ∧
    refusalOf (step (busy b1 (at0 [] [.agentRead 0x200]))) = some .dataRace ∧
    (nextOf (step (busy b1 (at0 [] [.agentWrite 0x204 1])))).map (fun t => t.mem) = some [(0x204, 1)] ∧
    (nextOf (step (busy b1 (at0 [] [.agentWrite 0x102 1])))).map (fun t => t.mem) = some [(0x102, 1)] ∧
    (nextOf (step (busy b1 (at0 [(0x100, 7)] [.agentRead 0x100])))).map (fun t => t.observed) =
      some [.byte 0x100 7] := by decide

/-- `AgentsAccessPlainMemoryFreely`, every clause from an idle block, at the last cell and one past it. -/
theorem witness_agents :
    (at0 [] [.agentWrite 0xFFFF 9]).cw = none ∧
    plainAt scriptPlatform 0xFFFF = true ∧ plainAt scriptPlatform 0x10000 = false ∧
    (nextOf (step (at0 [] [.agentWrite 0xFFFF 9]))).map (fun t => t.mem) = some [(0xFFFF, 9)] ∧
    refusalOf (step (at0 [] [.agentWrite 0x10000 9])) = some .agentOutsideMemory ∧
    (nextOf (step (at0 [(0xFFFF, 3)] [.agentRead 0xFFFF]))).map (fun t => t.observed) =
      some [.byte 0xFFFF 3] ∧
    refusalOf (step (at0 [] [.agentRead 0x10000])) = some .agentOutsideMemory := by decide

/-- `AgentsAccessPlainMemoryFreely`, its premise in a busy block: a `TC.DEC` in progress, and an `HX.BUF` of no
bytes with no value on its side ports; a store lands in both. -/
theorem witness_agents_busy :
    (∀ c src dst n, commandInProgress (busy ⟨0x0003E, none, none⟩ (at0 [] [.agentWrite 0x200 9])) = some c →
      decode c = .instr (.hxBuf src dst n) → n = 0#16) ∧
    (nextOf (step (busy ⟨0x0003E, none, none⟩ (at0 [] [.agentWrite 0x200 9])))).map (fun t => t.mem) =
      some [(0x200, 9)] ∧
    (∀ c src dst n, commandInProgress (busy ⟨0x30000, none, none⟩ (at0 [] [.agentWrite 0x200 9])) = some c →
      decode c = .instr (.hxBuf src dst n) → n = 0#16) ∧
    (nextOf (step (busy ⟨0x30000, none, none⟩ (at0 [] [.agentWrite 0x200 9])))).map (fun t => t.mem) =
      some [(0x200, 9)] := by
  refine ⟨fun c src dst n hc hd => ?_, by decide, fun c src dst n hc hd => ?_, by decide⟩
  · have : c = ⟨0x0003E, none, none⟩ := by simpa [busy, commandInProgress] using hc.symm
    subst this
    rw [show decode ⟨0x0003E, none, none⟩ = .instr (.tcDec 0x3E) by decide] at hd
    cases hd
  · have : c = ⟨0x30000, none, none⟩ := by simpa [busy, commandInProgress] using hc.symm
    subst this
    rw [show decode ⟨0x30000, none, none⟩ = .instr (.hxBuf none none 0#16) by decide] at hd
    injection hd with hd
    injection hd with _ _ hn
    exact hn.symm

/-- `ResetOfAnIdleBlock`: with a response on the ports. -/
theorem witness_idle_reset :
    ∃ s : State, s.cw = none ∧ s.timeline = .reset :: [] ∧ s.rsp ≠ {} :=
  ⟨{ at0 [] [.reset] with rsp := { ticks := some 3 } }, by decide⟩

/-- `ResetAbandonsTheCommandInProgress`: B1 and a `TC.DEC` in progress. -/
theorem witness_busy_reset :
    (∃ s : State, commandInProgress s = some b1 ∧ decode b1 = .instr (.hxBuf (some 0x100) (some 0x200) 2) ∧
      contractViolation s.platform (.hxBuf (some 0x100) (some 0x200) 2) = none ∧
      s.timeline = .reset :: []) ∧
    (∃ (s : State) (c : Command), commandInProgress s = some c ∧ decode c = .instr (.tcDec 0x3E) ∧
      contractViolation s.platform (.tcDec 0x3E) = none ∧ s.timeline = .reset :: []) :=
  ⟨⟨busy b1 (at0 [] [.reset]), by decide⟩,
    ⟨busy ⟨0x0003E, none, none⟩ (at0 [] [.reset]), ⟨0x0003E, none, none⟩, by decide⟩⟩

/-- `PowerCycleOfAnIdleBlockIsReset`, both clauses. -/
theorem witness_power :
    ((at0 [] [.powerCycle]).cw = none ∧ (at0 [] [.powerCycle]).timeline = .powerCycle :: []) ∧
    (busy b1 (at0 [] [.powerCycle])).cw ≠ none ∧
    refusalOf (step (busy b1 (at0 [] [.powerCycle]))) = some .powerLostInProgress := by decide

/-- `StepKeepsTheInvariant` from an idle state that accepts a command, `NoStepChangesTableOrParameters`. -/
theorem witness_step :
    ∃ s t : State, s.Inv ∧ step s = .next t :=
  ⟨busy b1 (at0 [(0x100, 0xDE)] [.agentWrite 0x300 5]), _, busy_b1_inv _ _ (by decide) (by decide), rfl⟩

/-- `MemoryChangesOnlyByHxBufOrAgents`: a byte that an agent stores, and one that B1 writes. -/
theorem witness_memory_changes :
    (∃ s t : State, step s = .next t ∧ t.mem.read 0x300 ≠ s.mem.read 0x300) ∧
    (∃ s t : State, step s = .next t ∧ t.mem.read 0x203 ≠ s.mem.read 0x203) :=
  ⟨⟨at0 [] [.agentWrite 0x300 5], _, rfl, by decide⟩, ⟨busy b1 (at0 [(0x101, 0xAD)] []), _, rfl, by decide⟩⟩

/-- `MemoriesThatReadTheSameAreEqual`: two canonical memories, and a list that is not one for each rule of
the form. -/
theorem witness_canonical :
    Memory.wf [] = true ∧ Memory.wf [(1, 5), (2, 5)] = true ∧ Memory.wf [(1, 0)] = false ∧
    Memory.wf [(2, 5), (1, 5)] = false ∧ Memory.wf [(1, 5), (1, 6)] = false := by decide

/-- `FetchedWordIsTheNextStep`. -/
theorem witness_table_word : decodeTableWord 24 0x3FFFF = some (.hxBuf (some 0) (some 65535) 65535) := by
  decide

end Sys2Proof.Tests
end

namespace Sys2Proof.Proofs.Encoding

open Sys2Proof.Laws

/-- The two bits above `arg` are the selector (30_encoding.md R36). -/
theorem toNat_div_eq_of_opField {w : CommandWord} {op : BitVec 2} (h : opField w = op) :
    w.toNat / 65536 = op.toNat := by
  obtain ⟨hop, -, -, -⟩ := field_values w
  rw [← hop, h]

/-- Settles O3: the row of the decoded operation says which field each operand is, and `field_values`
says which slice of the word that field is; the side ports stand in `HX.BUF` as they came. -/
theorem operandsAreSlicesOfTheWord : Obligations.OperandsAreSlicesOfTheWord := by
  intro w src dst i h
  obtain ⟨-, harg, -, hlow⟩ := field_values w
  rcases decode_instr_cases h with
    ⟨hop, -, rfl⟩ | ⟨hop, rfl⟩ | ⟨hop, -, rfl⟩ | ⟨hop, rfl⟩
  case inl => exact ⟨toNat_div_eq_of_opField hop, hlow⟩
  case inr.inl => exact ⟨toNat_div_eq_of_opField hop, harg⟩
  case inr.inr.inl => exact ⟨toNat_div_eq_of_opField hop, hlow⟩
  case inr.inr.inr => exact ⟨toNat_div_eq_of_opField hop, harg, rfl, rfl⟩

end Sys2Proof.Proofs.Encoding

namespace Sys2Proof.Proofs.TimeoutCodec

open Sys2Proof.Laws Sys2Proof.Laws.EncodeSelectsRow Sys2Proof.Machine

/-! ### The command words and the frames of the two operations -/

theorem argLow_byteOperand (op : BitVec 2) (b : Byte) : argLow (commandWord op (b.setWidth 16)) = b := by
  rw [argLow, argField_commandWord]
  ext i hi
  simp [hi, show i < 16 by omega]

/-- The word of `TC.DEC` (30_encoding.md R38), whatever the side ports hold (R37). -/
theorem decode_tcDec_word (code : Byte) (src dst : Option Nat) :
    decode ⟨commandWord 0b00#2 (code.setWidth 16), src, dst⟩ = .instr (.tcDec code) := by
  simp [decode, opField_commandWord, argHigh_byteOperand, argLow_byteOperand]

/-- The word of `TC.ENC` (30_encoding.md R38), whatever the side ports hold (R37). -/
theorem decode_tcEnc_word (ticks : Half) (src dst : Option Nat) :
    decode ⟨commandWord 0b01#2 ticks, src, dst⟩ = .instr (.tcEnc ticks) := by
  simp [decode, opField_commandWord, argField_commandWord]

theorem exec_tcDec (code : Byte) (s : State) :
    exec (.tcDec code) s = .next (completeCommand (.ofTicks (decTicks code)) (beginCommand s)) := rfl

theorem exec_tcEnc (ticks : Half) (s : State) :
    exec (.tcEnc ticks) s = .next (completeCommand (.ofCode (encCode ticks)) (beginCommand s)) := rfl

/-- A command that begins and completes with no memory access between changes the ports and the record
of accesses, nothing else. -/
theorem completeCommand_beginCommand (r : Response) (s : State) :
    completeCommand r (beginCommand s) =
      { s with cw := none, src := none, dst := none, bus := [], rsp := r } := rfl

/-! ### Decode: the shift, the mantissa and the value -/

/-- `shift` is the class with a zero bit appended (41_timeoutcodec_laws.md R60). -/
theorem decShift_eq (code : Byte) : decShift code = (code.extractLsb' 4 3).setWidth 4 <<< 1 := by
  ext i hi
  unfold decShift
  interval_cases i <;> simp

theorem decShift_toNat (code : Byte) : (decShift code).toNat = 2 * classOf code := by
  rw [decShift_eq, classOf]
  simp [Nat.shiftRight_eq_div_pow, Nat.shiftLeft_eq]
  omega

theorem decShift_toNat_eq_and (code : Byte) : (decShift code).toNat = (code.toNat >>> 3) &&& 0x0E := by
  rw [decShift, BitVec.toNat_setWidth, BitVec.toNat_and, BitVec.toNat_ushiftRight]
  exact Nat.mod_eq_of_lt (Nat.lt_succ_of_le (Nat.and_le_right.trans (by decide)))

theorem mantissaOf_eq_and (code : Byte) : mantissaOf code = code.toNat &&& 0x0F :=
  (Nat.and_two_pow_sub_one_eq_mod _ 4).symm

theorem classOf_lt (code : Byte) : classOf code < 8 := Nat.mod_lt _ (by decide)

theorem mantissaOf_lt (code : Byte) : mantissaOf code < 16 := Nat.mod_lt _ (by decide)

theorem decMantissa_toNat (code : Byte) : (decMantissa code).toNat = mantissaOf code := by
  rw [decMantissa, BitVec.toNat_setWidth, BitVec.toNat_and]
  exact (congrArg (· % 16) (mantissaOf_eq_and code).symm).trans (Nat.mod_eq_of_lt (mantissaOf_lt code))

/-- The sum of `base` does not wrap: it is at most 16. -/
theorem decBase_toNat (code : Byte) :
    (decBase code).toNat = mantissaOf code + if (decShift code).toNat ≠ 0 then 1 else 0 := by
  have hm := mantissaOf_lt code
  have hzero : decShift code = 0#4 ↔ (decShift code).toNat = 0 := by
    rw [← BitVec.toNat_inj]; rfl
  by_cases h : (decShift code).toNat = 0 <;> simp [decBase, hzero, h, decMantissa_toNat] <;> omega

theorem decTicks_toNat (code : Byte) :
    (decTicks code).toNat = ((decBase code).toNat <<< (decShift code).toNat) % 2 ^ 16 :=
  BitVec.toNat_shiftLeft ..

/-- Decode above class 0 (41_timeoutcodec_laws.md R61). -/
theorem decTicks_toNat_of_classOf_ne_zero {code : Byte} (h : classOf code ≠ 0) :
    (decTicks code).toNat = ((mantissaOf code + 1) * 4 ^ classOf code) % 2 ^ 16 := by
  have hshift : (decShift code).toNat ≠ 0 := by rw [decShift_toNat]; omega
  rw [decTicks_toNat, decBase_toNat, if_pos hshift, decShift_toNat, Nat.shiftLeft_eq, pow_mul,
    show 2 ^ 2 = 4 from rfl]

/-- Settles O6: the value is `base` shifted in 16 bits, with the spec's `shift` and `mantissa` for the
model's. -/
theorem tcDecDrivesTheScaledMantissa : Obligations.TcDecDrivesTheScaledMantissa := by
  intro code s src dst
  refine ⟨decode_tcDec_word code src dst, ?_, ?_⟩
  · rw [exec_tcDec, completeCommand_beginCommand, Response.ofTicks]
  · rw [decTicks_toNat, decBase_toNat, decShift_toNat_eq_and, mantissaOf_eq_and]

/-! ### Bit 7 -/

/-- The mask of `shift` drops bit 7 of the code. -/
theorem decShift_and_7F (code : Byte) : decShift (code &&& 0x7F) = decShift code := by
  unfold decShift
  rw [BitVec.ushiftRight_and_distrib, BitVec.and_assoc]
  rfl

/-- The mask of `mantissa` drops bit 7 of the code. -/
theorem decMantissa_and_7F (code : Byte) : decMantissa (code &&& 0x7F) = decMantissa code := by
  unfold decMantissa
  rw [BitVec.and_assoc]
  rfl

theorem decTicks_and_7F (code : Byte) : decTicks (code &&& 0x7F) = decTicks code := by
  simp only [decTicks, decBase, decShift_and_7F, decMantissa_and_7F]

/-- Settles O22: neither mask of decode reaches bit 7. -/
theorem decodeIgnoresBitSeven : Obligations.DecodeIgnoresBitSeven := by
  intro code s
  rw [exec_tcDec, exec_tcDec, decTicks_and_7F]

/-! ### The loop of encode -/

theorem encLoop_of_le (passes : Nat) (e : Byte) {t : Half} (h : t.toNat ≤ 16) :
    encLoop passes e t = (e, t) := by
  cases passes with
  | zero => rfl
  | succ passes => rw [encLoop, if_neg (by simpa [BitVec.lt_def] using h)]

theorem encLoop_succ_of_lt (passes : Nat) (e : Byte) {t : Half} (h : 16 < t.toNat) :
    encLoop (passes + 1) e t = encLoop passes (e + 2#8) (t >>> 4) := by
  rw [encLoop, if_pos (by simpa [BitVec.lt_def] using h)]

/-- `k` passes in a row: `e` grows by 2 and `t` loses 4 bits in each. -/
theorem encLoop_add (k passes : Nat) (e : Byte) (t : Half) (h : ∀ j < k, 16 < t.toNat / 16 ^ j) :
    encLoop (k + passes) e t = encLoop passes (e + BitVec.ofNat 8 (2 * k)) (t >>> (4 * k)) := by
  induction k generalizing e t with
  | zero => simp
  | succ k ih =>
    have hfirst : 16 < t.toNat := by simpa using h 0 (by omega)
    have hrest : ∀ j < k, 16 < (t >>> 4).toNat / 16 ^ j := by
      intro j hj
      rw [BitVec.toNat_ushiftRight, Nat.shiftRight_eq_div_pow, Nat.div_div_eq_div_mul, ← pow_succ']
      exact h (j + 1) (by omega)
    rw [Nat.succ_add, encLoop_succ_of_lt _ _ hfirst, ih _ _ hrest, ← BitVec.shiftRight_add,
      BitVec.add_assoc, ← BitVec.ofNat_add, show 2 + 2 * k = 2 * (k + 1) by ring,
      show 4 + 4 * k = 4 * (k + 1) by ring]

/-- The closed form's shift (41_timeoutcodec_laws.md R62) is the 2 bits before the loop and 4 in each of
`k` passes: before the `k`th pass the loop is not over, after it it is. -/
theorem closedShift_passes {t : Nat} (hlow : 16 ≤ t) (hhigh : t < 2 ^ 16) :
    ∃ k ≤ 3, closedShift t = 4 * k + 2 ∧ (∀ j < k, 16 < t / 4 / 16 ^ j) ∧
      1 ≤ t / 2 ^ (4 * k + 2) ∧ t / 2 ^ (4 * k + 2) ≤ 16 := by
  unfold closedShift
  split_ifs with h15 h67 h1087 h17407
  · omega
  · exact ⟨0, by decide, rfl, by omega, by omega, by omega⟩
  · refine ⟨1, by decide, rfl, fun j hj => ?_, by omega, by omega⟩
    interval_cases j; omega
  · refine ⟨2, by decide, rfl, fun j hj => ?_, by omega, by omega⟩
    interval_cases j <;> omega
  · refine ⟨3, by decide, rfl, fun j hj => ?_, by omega, by omega⟩
    interval_cases j <;> omega

/-- `e` after `k` passes is half the total shift. -/
theorem exponent_after_passes {k : Nat} (hk : k ≤ 3) :
    (1#8 + BitVec.ofNat 8 (2 * k)).toNat = (4 * k + 2) / 2 := by
  rw [BitVec.toNat_add, BitVec.toNat_ofNat, BitVec.toNat_ofNat]
  omega

/-- `t` after the two bits before the loop and `k` passes. -/
theorem toNat_after_passes (ticks : Half) (k : Nat) :
    (ticks >>> 2 >>> (4 * k)).toNat = ticks.toNat / 2 ^ (4 * k + 2) := by
  rw [← BitVec.shiftRight_add, BitVec.toNat_ushiftRight, Nat.shiftRight_eq_div_pow, Nat.add_comm 2]

/-- Where the first `k` passes are made and the loop is then over, it stays so, however many more are
allowed. -/
theorem encLoop_of_passes {ticks : Half} {k passes : Nat} (hk : k ≤ passes)
    (hmade : ∀ j < k, 16 < ticks.toNat / 4 / 16 ^ j) (hover : ticks.toNat / 2 ^ (4 * k + 2) ≤ 16) :
    encLoop passes 1#8 (ticks >>> 2) = (1#8 + BitVec.ofNat 8 (2 * k), ticks >>> 2 >>> (4 * k)) := by
  obtain ⟨more, rfl⟩ := Nat.exists_eq_add_of_le hk
  rw [encLoop_add k more 1#8 _ (by simpa [Nat.shiftRight_eq_div_pow] using hmade),
    encLoop_of_le _ _ (by rwa [toNat_after_passes])]

/-- Where more than `passes` passes are to be made, the loop cut there is not over. -/
theorem encLoop_not_over {ticks : Half} {k passes : Nat} (hk : passes < k)
    (hmade : ∀ j < k, 16 < ticks.toNat / 4 / 16 ^ j) :
    16 < (encLoop passes 1#8 (ticks >>> 2)).2.toNat := by
  have hcut : encLoop passes 1#8 (ticks >>> 2) =
      (1#8 + BitVec.ofNat 8 (2 * passes), ticks >>> 2 >>> (4 * passes)) :=
    encLoop_add passes 0 1#8 _ fun j hj => by
      simpa [Nat.shiftRight_eq_div_pow] using hmade j (hj.trans hk)
  have hlast := hmade passes hk
  rw [Nat.div_div_eq_div_mul, show 4 * 16 ^ passes = 2 ^ (4 * passes + 2) by
    rw [pow_add, pow_mul]; ring] at hlast
  rwa [hcut, toNat_after_passes]

/-! ### The code of a tick count -/

theorem encCode_of_lt {ticks : Half} (h : ticks.toNat < 16) : encCode ticks = ticks.setWidth 8 := by
  rw [encCode, if_pos (by simpa [BitVec.lt_def] using h)]

/-- The code of a tick count for which the loop makes `k` passes: `e` above the mantissa, nothing lost in
8 bits. -/
theorem encCode_toNat_of_passes {ticks : Half} {k : Nat} (hlow : 16 ≤ ticks.toNat) (hk : k ≤ 3)
    (hmade : ∀ j < k, 16 < ticks.toNat / 4 / 16 ^ j) (hpos : 1 ≤ ticks.toNat / 2 ^ (4 * k + 2))
    (hover : ticks.toNat / 2 ^ (4 * k + 2) ≤ 16) :
    (encCode ticks).toNat = (2 * k + 1) * 16 + (ticks.toNat / 2 ^ (4 * k + 2) - 1) := by
  have hlimit : k ≤ encPassLimit := hk.trans (by decide)
  rw [encCode, if_neg (by simpa [BitVec.lt_def] using hlow), encLoop_of_passes hlimit hmade hover]
  rw [← toNat_after_passes] at hpos hover ⊢
  generalize ticks >>> 2 >>> (4 * k) = t at hpos hover ⊢
  simp [BitVec.toNat_sub, Nat.shiftLeft_eq]
  omega

theorem closedCode_of_passes {t k : Nat} (h : closedShift t = 4 * k + 2) :
    closedCode t = (2 * k + 1) * 16 + (t / 2 ^ (4 * k + 2) - 1) := by
  rw [closedCode, h, if_neg (by omega), show (4 * k + 2) / 2 = 2 * k + 1 by omega]

theorem closedCode_of_lt {t : Nat} (h : t < 16) : closedCode t = t := if_pos (if_pos (by omega))

/-- Encode has the closed form (41_timeoutcodec_laws.md R62). -/
theorem encCode_toNat (ticks : Half) : (encCode ticks).toNat = closedCode ticks.toNat := by
  by_cases hlow : ticks.toNat < 16
  · rw [encCode_of_lt hlow, closedCode_of_lt hlow, BitVec.toNat_setWidth]
    omega
  · obtain ⟨k, hk, hshift, hmade, hpos, hover⟩ := closedShift_passes (Nat.le_of_not_lt hlow) ticks.isLt
    rw [encCode_toNat_of_passes (Nat.le_of_not_lt hlow) hk hmade hpos hover, closedCode_of_passes hshift]

/-- Settles O7: the frame is that of a command without memory accesses, the value the closed form's. -/
theorem tcEncDrivesTheCode : Obligations.TcEncDrivesTheCode := by
  intro ticks s src dst
  refine ⟨decode_tcEnc_word ticks src dst, ?_, encCode_toNat ticks⟩
  rw [exec_tcEnc, completeCommand_beginCommand, Response.ofCode]

theorem inImage_iff (c : Nat) :
    inImage c = true ↔ c ≤ 0x0F ∨ (0x13 ≤ c ∧ c ≤ 0x1F) ∨ (0x30 ≤ c ∧ c ≤ 0x3F) ∨
      (0x50 ≤ c ∧ c ≤ 0x5F) ∨ (0x70 ≤ c ∧ c ≤ 0x72) := by
  simp [inImage, or_assoc]

/-- The closed form gives a code of the image (41_timeoutcodec_laws.md R64): `k` passes give one of class
`2k + 1`, from mantissa 3 on in class 1 and up to mantissa 2 in class 7. -/
theorem inImage_closedCode {t : Nat} (h : t < 2 ^ 16) : inImage (closedCode t) = true := by
  rw [inImage_iff]
  by_cases hlow : t < 16
  · rw [closedCode_of_lt hlow]
    omega
  · obtain ⟨k, hk, hshift, -, hpos, hover⟩ := closedShift_passes (Nat.le_of_not_lt hlow) h
    rw [closedCode_of_passes hshift]
    interval_cases k <;> omega

theorem inImage_encCode (ticks : Half) : inImage (encCode ticks).toNat = true := by
  rw [encCode_toNat]
  exact inImage_closedCode ticks.isLt

theorem le_of_inImage {c : Nat} (h : inImage c = true) : c ≤ 0x72 := by
  rw [inImage_iff] at h
  omega

/-- Settles O25: `closedShift_passes` gives the number of passes; allowed fewer the loop is not over, and
allowed as many or more it ends after exactly these. -/
theorem encodeLoopEndsAfterAtMostThreePasses : Obligations.EncodeLoopEndsAfterAtMostThreePasses := by
  intro ticks hlow
  obtain ⟨k, hk, hshift, hmade, hpos, hover⟩ := closedShift_passes hlow ticks.isLt
  have hpasses : (closedShift ticks.toNat - 2) / 4 = k := by omega
  rw [hpasses, hshift]
  refine ⟨hk, fun passes hle => ?_, fun passes hlt => encLoop_not_over hlt hmade, hpos, hover,
    le_of_inImage (inImage_encCode ticks)⟩
  rw [show (1 : Byte) = 1#8 from rfl, encLoop_of_passes hle hmade hover]
  exact ⟨exponent_after_passes hk, toNat_after_passes ticks k⟩

/-! ### The codes that wrap -/

theorem classOf_eq (code : Byte) : classOf code = code.toNat % 128 / 16 := by
  unfold classOf; omega

theorem mantissaOf_eq (code : Byte) : mantissaOf code = code.toNat % 128 % 16 := by
  unfold mantissaOf; omega

/-- Where the product of decode reaches `2^16` (41_timeoutcodec_laws.md R61). -/
theorem wraps_iff {E M : Nat} (hE : E < 8) (hM : M < 16) :
    2 ^ 16 ≤ (M + 1) * 4 ^ E ↔ (E = 6 ∧ M = 15) ∨ (E = 7 ∧ 3 ≤ M) := by
  interval_cases E <;> omega

theorem exists_wrappingCodes_row_iff {c : Nat} (h : c < 128) :
    (∃ row ∈ wrappingCodes, row.1 = c) ↔ c = 0x6F ∨ 0x73 ≤ c := by
  simp [wrappingCodes]
  omega

/-- Each value of the table is the product in 16 bits, of a class above 0. -/
theorem wrappingCodes_value :
    ∀ row ∈ wrappingCodes, row.1 / 16 ≠ 0 ∧ (row.1 % 16 + 1) * 4 ^ (row.1 / 16) % 2 ^ 16 = row.2 := by
  decide

theorem wrappingCodes_not_inImage : ∀ row ∈ wrappingCodes, inImage row.1 = false := by decide

/-- Settles O23: `wraps_iff` says where the product reaches `2^16`, the closed form above class 0 gives the
values, and no code of the table is in the image of encode. -/
theorem exactlyFourteenCodesWrap : Obligations.ExactlyFourteenCodesWrap := by
  refine ⟨fun code => ?_, fun code row hrow hcode => ?_, fun code hclass => ?_,
    fun ticks row hrow heq => ?_⟩
  · rw [exists_wrappingCodes_row_iff (Nat.mod_lt _ (by decide)),
      wraps_iff (classOf_lt code) (mantissaOf_lt code), classOf_eq, mantissaOf_eq]
    omega
  · obtain ⟨hclass, hvalue⟩ := wrappingCodes_value row hrow
    rw [hcode, ← classOf_eq] at hclass
    rw [hcode, ← classOf_eq, ← mantissaOf_eq] at hvalue
    rw [decTicks_toNat_of_classOf_ne_zero hclass, hvalue]
  · rw [decTicks_toNat_of_classOf_ne_zero (by omega), hclass]
    omega
  · have himage := inImage_encCode ticks
    rw [← heq, wrappingCodes_not_inImage row hrow] at himage
    cases himage

end Sys2Proof.Proofs.TimeoutCodec

namespace Sys2Proof.Proofs.TimeoutCodecLaws

open Sys2Proof.Machine Sys2Proof.Proofs.TimeoutCodec

/-! ### Decode over all codes -/

/-- Decode has the closed form (41_timeoutcodec_laws.md R61): in class 0 there is no leading one and no
shift. -/
theorem decTicks_toNat_eq_closedTicks (code : Byte) : (decTicks code).toNat = closedTicks code := by
  by_cases h : classOf code = 0
  · have hm := mantissaOf_lt code
    rw [closedTicks, if_pos h, decTicks_toNat, decBase_toNat, decShift_toNat, h, if_neg (by decide),
      Nat.shiftLeft_eq]
    omega
  · rw [closedTicks, if_neg h, decTicks_toNat_of_classOf_ne_zero h]

/-- Settles O21: `wraps_iff` says where the product reaches `2^16`. -/
theorem decodeHasTheClosedForm : Obligations.DecodeHasTheClosedForm := fun code =>
  ⟨decShift_toNat code, decMantissa_toNat code, decTicks_toNat_eq_closedTicks code,
    fun _ => wraps_iff (classOf_lt code) (mantissaOf_lt code)⟩

/-- The entries of the decode table are the values of the closed form. -/
theorem decodeTable_entry : ∀ E < 8, ∀ M < 16,
    (decodeTable.getD E []).getD M 0 = if E = 0 then M else ((M + 1) * 4 ^ E) % 2 ^ 16 := by
  decide

/-- The largest remainder of a product of decode, and where it is taken: below class 6 no product is that
large, and in class 7 every remainder is a multiple of `2^14`. -/
theorem product_mod_le {E M : Nat} (hE : E < 8) (hM : M < 16) :
    ((M + 1) * 4 ^ E) % 2 ^ 16 ≤ 61440 ∧
      (((M + 1) * 4 ^ E) % 2 ^ 16 = 61440 ↔ E = 6 ∧ M = 14) := by
  interval_cases E <;> omega

/-- The largest value of decode and the code that has it (41_timeoutcodec_laws.md R74). -/
theorem decTicks_toNat_le (code : Byte) :
    (decTicks code).toNat ≤ 61440 ∧
      ((decTicks code).toNat = 61440 ↔ classOf code = 6 ∧ mantissaOf code = 14) := by
  have hM := mantissaOf_lt code
  rw [decTicks_toNat_eq_closedTicks, closedTicks]
  split_ifs with h
  · omega
  · exact product_mod_le (classOf_lt code) hM

/-- Settles O24: `decodeTable_entry` compares the table with the closed form, `decTicks_toNat_le` gives the
largest value. -/
theorem decodeAgreesWithTheTable : Obligations.DecodeAgreesWithTheTable := by
  refine ⟨fun code => ?_, fun code => (decTicks_toNat_le code).1, fun code => ?_⟩
  · rw [decodeTable_entry _ (classOf_lt code) _ (mantissaOf_lt code), decTicks_toNat_eq_closedTicks,
      closedTicks]
  · rw [(decTicks_toNat_le code).2, classOf_eq, mantissaOf_eq]
    omega

/-! ### Encode range by range, decode on the image

`encCode_ranges` and `decTicks_runs` are what the laws of the round trip follow from by linear
arithmetic. -/

/-- The five ranges of the total shift (41_timeoutcodec_laws.md R62). -/
theorem closedShift_ranges (t : Nat) :
    (closedShift t = 0 ∧ t ≤ 15) ∨ (closedShift t = 2 ∧ 16 ≤ t ∧ t ≤ 67) ∨
    (closedShift t = 6 ∧ 68 ≤ t ∧ t ≤ 1087) ∨ (closedShift t = 10 ∧ 1088 ≤ t ∧ t ≤ 17407) ∨
    (closedShift t = 14 ∧ 17408 ≤ t) := by
  unfold closedShift
  split_ifs <;> omega

/-- Encode in the five ranges of the total shift: the class in the high digit, the mantissa one below the
shifted tick count. -/
theorem encCode_ranges (t : Half) :
    (t.toNat ≤ 15 ∧ (encCode t).toNat = t.toNat) ∨
    (16 ≤ t.toNat ∧ t.toNat ≤ 67 ∧ (encCode t).toNat = 0x10 + (t.toNat / 4 - 1)) ∨
    (68 ≤ t.toNat ∧ t.toNat ≤ 1087 ∧ (encCode t).toNat = 0x30 + (t.toNat / 64 - 1)) ∨
    (1088 ≤ t.toNat ∧ t.toNat ≤ 17407 ∧ (encCode t).toNat = 0x50 + (t.toNat / 1024 - 1)) ∨
    (17408 ≤ t.toNat ∧ (encCode t).toNat = 0x70 + (t.toNat / 16384 - 1)) := by
  rw [encCode_toNat]
  rcases closedShift_ranges t.toNat with ⟨-, h⟩ | ⟨hs, hl, hh⟩ | ⟨hs, hl, hh⟩ | ⟨hs, hl, hh⟩ | ⟨hs, hl⟩
  · exact .inl ⟨h, closedCode_of_lt (by omega)⟩
  · exact .inr (.inl ⟨hl, hh, closedCode_of_passes (k := 0) hs⟩)
  · exact .inr (.inr (.inl ⟨hl, hh, closedCode_of_passes (k := 1) hs⟩))
  · exact .inr (.inr (.inr (.inl ⟨hl, hh, closedCode_of_passes (k := 2) hs⟩)))
  · exact .inr (.inr (.inr (.inr ⟨hl, closedCode_of_passes (k := 3) hs⟩)))

theorem decTicks_toNat_of_classOf_eq {c : Byte} {E : Nat} (h : classOf c = E) (hE : E ≠ 0) :
    (decTicks c).toNat = ((c.toNat % 16 + 1) * 4 ^ E) % 2 ^ 16 :=
  h ▸ decTicks_toNat_of_classOf_ne_zero (h ▸ hE)

/-- Decode on the five runs of codes of the image (41_timeoutcodec_laws.md R64): in each class above 0
multiples of its step, none of them wrapped. -/
theorem decTicks_runs {c : Byte} (h : inImage c.toNat = true) :
    (c.toNat ≤ 0x0F ∧ (decTicks c).toNat = c.toNat) ∨
    (0x13 ≤ c.toNat ∧ c.toNat ≤ 0x1F ∧ (decTicks c).toNat = (c.toNat - 0x10 + 1) * 4) ∨
    (0x30 ≤ c.toNat ∧ c.toNat ≤ 0x3F ∧ (decTicks c).toNat = (c.toNat - 0x30 + 1) * 64) ∨
    (0x50 ≤ c.toNat ∧ c.toNat ≤ 0x5F ∧ (decTicks c).toNat = (c.toNat - 0x50 + 1) * 1024) ∨
    (0x70 ≤ c.toNat ∧ c.toNat ≤ 0x72 ∧ (decTicks c).toNat = (c.toNat - 0x70 + 1) * 16384) := by
  rcases (inImage_iff _).1 h with h | h | h | h | h
  · rw [decTicks_toNat_eq_closedTicks, closedTicks, if_pos (by unfold classOf; omega), mantissaOf]
    omega
  · rw [decTicks_toNat_of_classOf_eq (E := 1) (by unfold classOf; omega) (by decide)]
    omega
  · rw [decTicks_toNat_of_classOf_eq (E := 3) (by unfold classOf; omega) (by decide)]
    omega
  · rw [decTicks_toNat_of_classOf_eq (E := 5) (by unfold classOf; omega) (by decide)]
    omega
  · rw [decTicks_toNat_of_classOf_eq (E := 7) (by unfold classOf; omega) (by decide)]
    omega

/-! ### The round trip -/

/-- The left shift of decode undoes the right shift of encode (41_timeoutcodec_laws.md R63, R65). -/
theorem roundTrip_toNat (t : Half) :
    (roundTrip t).toNat = t.toNat / 2 ^ closedShift t.toNat * 2 ^ closedShift t.toNat := by
  have henc := encCode_ranges t
  have hdec := decTicks_runs (inImage_encCode t)
  have hlt := t.isLt
  rw [roundTrip]
  rcases closedShift_ranges t.toNat with ⟨hs, h⟩ | ⟨hs, h⟩ | ⟨hs, h⟩ | ⟨hs, h⟩ | ⟨hs, h⟩
  all_goals
    rw [hs]
    omega

theorem roundTrip_toNat_eq_sub (t : Half) :
    (roundTrip t).toNat = t.toNat - t.toNat % 2 ^ closedShift t.toNat := by
  rw [roundTrip_toNat, Nat.div_mul_self_eq_mod_sub_self]

theorem roundTrip_eq_self_iff (t : Half) :
    roundTrip t = t ↔ t.toNat % 2 ^ closedShift t.toNat = 0 := by
  have hle := Nat.mod_le t.toNat (2 ^ closedShift t.toNat)
  rw [← BitVec.toNat_inj, roundTrip_toNat_eq_sub]
  omega

/-- Settles O28: each command answers with its value, and the two values compose to the round trip. -/
theorem roundTripOfTwoCommandsTruncates : Obligations.RoundTripOfTwoCommandsTruncates := fun ticks s =>
  ⟨_, encCode ticks, _, roundTrip ticks, exec_tcEnc ticks s, rfl, exec_tcDec (encCode ticks) _, rfl,
    roundTrip_toNat_eq_sub ticks, roundTrip_toNat ticks,
    (roundTrip_toNat_eq_sub ticks).trans_le (Nat.sub_le _ _), roundTrip_eq_self_iff ticks⟩

/-! ### Monotonicity -/

/-- Within a range the code grows with the shifted tick count, and from one range to the next its class
grows (41_timeoutcodec_laws.md R68). -/
theorem encCode_mono {t1 t2 : Half} (h : t1 ≤ t2) : encCode t1 ≤ encCode t2 := by
  have h1 := encCode_ranges t1
  have h2 := encCode_ranges t2
  rw [BitVec.le_def] at h ⊢
  omega

/-- Settles O30: two tick counts of one interval show that encode is not strictly monotone. -/
theorem encodeIsMonotone : Obligations.EncodeIsMonotone :=
  ⟨fun _ _ => encCode_mono, 16, 17, by decide, by decide⟩

/-- Each class of the image but the first begins at or just below the last value of the one before it
(41_timeoutcodec_laws.md R70). -/
theorem decTicks_mono_of_inImage {c1 c2 : Byte} (h1 : inImage c1.toNat = true)
    (h2 : inImage c2.toNat = true) (h : c1 ≤ c2) : decTicks c1 ≤ decTicks c2 := by
  have hdec1 := decTicks_runs h1
  have hdec2 := decTicks_runs h2
  rw [BitVec.le_def] at h ⊢
  omega

theorem decTicks_eq_iff_of_inImage {c1 c2 : Byte} (h1 : inImage c1.toNat = true)
    (h2 : inImage c2.toNat = true) (h : c1.toNat < c2.toNat) :
    decTicks c1 = decTicks c2 ↔
      (c1 = 0x1F ∧ c2 = 0x30) ∨ (c1 = 0x3F ∧ c2 = 0x50) ∨ (c1 = 0x5F ∧ c2 = 0x70) := by
  have hdec1 := decTicks_runs h1
  simp only [← BitVec.toNat_inj, BitVec.reduceToNat]
  rcases decTicks_runs h2 with hdec2 | hdec2 | hdec2 | hdec2 | hdec2
  all_goals omega

/-- Settles O31: the round trip is encode and then decode on the image, both monotone. -/
theorem roundTripIsMonotone : Obligations.RoundTripIsMonotone :=
  ⟨fun t1 t2 h => decTicks_mono_of_inImage (inImage_encCode t1) (inImage_encCode t2) (encCode_mono h),
    16, 17, by decide, by decide⟩

/-! ### Re-encoding -/

/-- The lower code of a tie (41_timeoutcodec_laws.md R70), and every other code itself. -/
def lowerOfTie (c : Byte) : Byte :=
  if c = 0x30 then 0x1F else if c = 0x50 then 0x3F else if c = 0x70 then 0x5F else c

theorem decTicks_lowerOfTie (c : Byte) : decTicks (lowerOfTie c) = decTicks c := by
  unfold lowerOfTie
  split_ifs with h30 h50 h70
  · rw [h30]; decide
  · rw [h50]; decide
  · rw [h70]; decide
  · rfl

theorem lowerOfTie_eq_self_iff (c : Byte) : lowerOfTie c = c ↔ c ≠ 0x30 ∧ c ≠ 0x50 ∧ c ≠ 0x70 := by
  unfold lowerOfTie
  split_ifs with h30 h50 h70
  · simp [h30]
  · simp [h50]
  · simp [h70]
  · exact ⟨fun _ => ⟨h30, h50, h70⟩, fun _ => rfl⟩

/-- Re-encoding a code of the image gives it back, but for the upper code of a tie
(41_timeoutcodec_laws.md R72). -/
theorem encCode_decTicks_of_inImage {c : Byte} (h : inImage c.toNat = true) :
    encCode (decTicks c) = lowerOfTie c := by
  have henc := encCode_ranges (decTicks c)
  have hdec := decTicks_runs h
  unfold lowerOfTie
  split_ifs with h30 h50 h70
  all_goals
    simp only [← BitVec.toNat_inj, BitVec.reduceToNat] at *
    omega

/-- Settles O34: a code that re-encodes to itself is in the image, and there `lowerOfTie` says what it
re-encodes to. -/
theorem reencodingIsTheIdentityOnSixtyOneCodes : Obligations.ReencodingIsTheIdentityOnSixtyOneCodes := by
  refine ⟨fun c => ⟨fun h => ?_, fun ⟨himage, hties⟩ => ?_⟩, ?_, ?_, ?_, by decide⟩
  · have himage : inImage c.toNat = true := h ▸ inImage_encCode (decTicks c)
    rw [encCode_decTicks_of_inImage himage, lowerOfTie_eq_self_iff] at h
    exact ⟨himage, h⟩
  · rw [encCode_decTicks_of_inImage himage, lowerOfTie_eq_self_iff]
    exact hties
  all_goals exact encCode_decTicks_of_inImage (by decide)

/-- The round trip re-encodes to the lower code of a tie. -/
theorem encCode_roundTrip (t : Half) : encCode (roundTrip t) = lowerOfTie (encCode t) :=
  encCode_decTicks_of_inImage (inImage_encCode t)

theorem encCode_roundTrip_ne_iff (t : Half) :
    encCode (roundTrip t) ≠ encCode t ↔ encCode t = 0x30 ∨ encCode t = 0x50 ∨ encCode t = 0x70 := by
  rw [encCode_roundTrip, Ne, lowerOfTie_eq_self_iff]
  tauto

/-- A decoded code of the image is a fixed point of the round trip. -/
theorem roundTrip_decTicks_of_inImage {c : Byte} (h : inImage c.toNat = true) :
    roundTrip (decTicks c) = decTicks c := by
  rw [roundTrip, encCode_decTicks_of_inImage h, decTicks_lowerOfTie]

/-- The intervals of the three upper codes of a tie (41_timeoutcodec_laws.md R75). -/
theorem encCode_upperOfTie_iff (t : Half) :
    encCode t = 0x30 ∨ encCode t = 0x50 ∨ encCode t = 0x70 ↔
      (68 ≤ t.toNat ∧ t.toNat ≤ 127) ∨ (1088 ≤ t.toNat ∧ t.toNat ≤ 2047) ∨
      (17408 ≤ t.toNat ∧ t.toNat ≤ 32767) := by
  have henc := encCode_ranges t
  simp only [← BitVec.toNat_inj, BitVec.reduceToNat]
  omega

/-- Settles O35: the two codes of a tie decode to one tick count, and re-encoding gives the lower one. -/
theorem roundTripIsIdempotentOnTicksNotOnCodes : Obligations.RoundTripIsIdempotentOnTicksNotOnCodes := by
  refine ⟨fun t => roundTrip_decTicks_of_inImage (inImage_encCode t),
    fun t => (encCode_roundTrip_ne_iff t).trans (encCode_upperOfTie_iff t), fun t h => ?_, rfl⟩
  rw [encCode_roundTrip]
  rcases (encCode_roundTrip_ne_iff t).1 h with h | h | h
  · exact .inl ⟨h, by rw [h]; rfl⟩
  · exact .inr (.inl ⟨h, by rw [h]; rfl⟩)
  · exact .inr (.inr ⟨h, by rw [h]; rfl⟩)

/-! ### The image and the table of encode -/

/-- A code that re-encodes to itself is the code of what it decodes to; the upper code of a tie is that of
the first tick count of its range. -/
theorem exists_encCode_eq {c : Byte} (h : inImage c.toNat = true) : ∃ ticks : Half, encCode ticks = c := by
  by_cases h30 : c = 0x30
  · exact ⟨68, by rw [h30]; decide⟩
  by_cases h50 : c = 0x50
  · exact ⟨1088, by rw [h50]; decide⟩
  by_cases h70 : c = 0x70
  · exact ⟨17408, by rw [h70]; decide⟩
  exact ⟨decTicks c, (encCode_decTicks_of_inImage h).trans ((lowerOfTie_eq_self_iff c).2 ⟨h30, h50, h70⟩)⟩

/-- Settles O26: encode stays inside the image (`inImage_encCode`) and reaches all of it
(`exists_encCode_eq`). -/
theorem encodeProducesExactlyTheImage : Obligations.EncodeProducesExactlyTheImage :=
  ⟨fun _ => ⟨fun ⟨ticks, h⟩ => h ▸ inImage_encCode ticks, exists_encCode_eq⟩, by decide⟩

/-- A row of the encode table by its class: the interval runs from the decoded value, or from the start of
the range of R62 where that is later, to the last tick count below the next multiple of the step. -/
theorem encodeTable_rows : ∀ row ∈ encodeTable,
    (0x13 ≤ row.1 ∧ row.1 ≤ 0x1F ∧ row.2.2.2 = (row.1 - 0x10 + 1) * 4 ∧
      row.2.1 = max 16 row.2.2.2 ∧ row.2.2.1 = row.2.2.2 + 3) ∨
    (0x30 ≤ row.1 ∧ row.1 ≤ 0x3F ∧ row.2.2.2 = (row.1 - 0x30 + 1) * 64 ∧
      row.2.1 = max 68 row.2.2.2 ∧ row.2.2.1 = row.2.2.2 + 63) ∨
    (0x50 ≤ row.1 ∧ row.1 ≤ 0x5F ∧ row.2.2.2 = (row.1 - 0x50 + 1) * 1024 ∧
      row.2.1 = max 1088 row.2.2.2 ∧ row.2.2.1 = row.2.2.2 + 1023) ∨
    (0x70 ≤ row.1 ∧ row.1 ≤ 0x72 ∧ row.2.2.2 = (row.1 - 0x70 + 1) * 16384 ∧
      row.2.1 = max 17408 row.2.2.2 ∧ row.2.2.1 = row.2.2.2 + 16383) := by
  decide

/-- Settles O27: the rows, encode and decode are compared class by class. -/
theorem encodeAgreesWithTheTable : Obligations.EncodeAgreesWithTheTable := by
  refine ⟨fun ticks h => ⟨?_, ?_⟩, fun row hrow ticks => ?_⟩
  · rw [encCode_toNat, closedCode_of_lt h]
  · rw [roundTrip_eq_self_iff, closedShift, if_pos (by omega), pow_zero, Nat.mod_one]
  · have henc := encCode_ranges ticks
    have hdec := decTicks_runs (inImage_encCode ticks)
    have hlt := ticks.isLt
    rw [roundTrip]
    rcases encodeTable_rows row hrow with h | h | h | h
    all_goals
      constructor <;> omega

/-! ### The fixed points of the round trip -/

/-- Membership in a run of evenly spaced values. -/
theorem mem_run_iff {base step n t : Nat} (hstep : 0 < step) :
    t ∈ (List.range n).map (fun k => base + step * k) ↔
      base ≤ t ∧ t < base + step * n ∧ (t - base) % step = 0 := by
  simp only [List.mem_map, List.mem_range]
  constructor
  · rintro ⟨k, hk, rfl⟩
    have hlt := Nat.mul_lt_mul_of_pos_left hk hstep
    exact ⟨by omega, by omega, by simp⟩
  · rintro ⟨hle, hlt, hmod⟩
    have hdiv := Nat.mul_div_cancel' (Nat.dvd_of_mod_eq_zero hmod)
    exact ⟨(t - base) / step, Nat.div_lt_of_lt_mul (by omega), by omega⟩

/-- The list of the fixed points, by the low bits that 41_timeoutcodec_laws.md R66 wants to be 0. -/
theorem mem_fixedTicks_iff {t : Nat} (h : t < 2 ^ 16) :
    t ∈ fixedTicks ↔ t % 2 ^ closedShift t = 0 := by
  simp only [fixedTicks, List.mem_append, List.mem_range, mem_run_iff (show 0 < 4 by decide),
    mem_run_iff (show 0 < 64 by decide), mem_run_iff (show 0 < 1024 by decide), List.mem_cons,
    List.not_mem_nil, or_false]
  rcases closedShift_ranges t with ⟨hs, ht⟩ | ⟨hs, ht⟩ | ⟨hs, ht⟩ | ⟨hs, ht⟩ | ⟨hs, ht⟩
  all_goals
    rw [hs]
    omega

theorem roundTrip_eq_self_iff_mem (t : Half) : roundTrip t = t ↔ t.toNat ∈ fixedTicks := by
  rw [roundTrip_eq_self_iff, mem_fixedTicks_iff t.isLt]

theorem mem_fixedTicks_iff_exists_inImage (t : Half) :
    t.toNat ∈ fixedTicks ↔ ∃ c : Byte, inImage c.toNat = true ∧ decTicks c = t := by
  rw [← roundTrip_eq_self_iff_mem]
  constructor
  · exact fun h => ⟨encCode t, inImage_encCode t, h⟩
  · rintro ⟨c, himage, rfl⟩
    exact roundTrip_decTicks_of_inImage himage

/-- Settles O32: the order and the ties are those of the runs of the image; what decode gives there are the
fixed points, which the list holds by their low bits. -/
theorem decodeOnTheImageHasThreeTies : Obligations.DecodeOnTheImageHasThreeTies :=
  ⟨fun _ _ h1 h2 h => ⟨decTicks_mono_of_inImage h1 h2 h.le, decTicks_eq_iff_of_inImage h1 h2 h⟩,
    by decide, by decide, by decide, mem_fixedTicks_iff_exists_inImage, roundTrip_eq_self_iff_mem,
    by decide, by decide⟩

end Sys2Proof.Proofs.TimeoutCodecLaws

namespace Sys2Proof.Proofs.HexCodec

open Sys2Proof.Laws Sys2Proof.Laws.EncodeSelectsRow Sys2Proof.Machine Sys2Proof.Proofs.TimeoutCodec

/-! ### The command words -/

/-- The word of `HX.BYTE` (30_encoding.md R38), whatever the side ports hold (R37). -/
theorem decode_hxByte_word (b : Byte) (src dst : Option Nat) :
    decode ⟨commandWord 0b10#2 (b.setWidth 16), src, dst⟩ = .instr (.hxByte b) := by
  simp [decode, opField_commandWord, argHigh_byteOperand, argLow_byteOperand]

/-- The word of `HX.BUF` with its side ports (30_encoding.md R37, R38). -/
theorem decode_hxBuf_word (n : Half) (src dst : Option Nat) :
    decode ⟨commandWord 0b11#2 n, src, dst⟩ = .instr (.hxBuf src dst n) := by
  simp [decode, opField_commandWord, argField_commandWord]

/-! ### The two characters of a byte -/

theorem highNibble_toNat (b : Byte) : (highNibble b).toNat = b.toNat / 16 := by
  have hlt := b.isLt
  simp only [highNibble, BitVec.extractLsb'_toNat, Nat.shiftRight_eq_div_pow]
  omega

theorem lowNibble_toNat (b : Byte) : (lowNibble b).toNat = b.toNat % 16 := by
  simp [lowNibble]

/-- A byte is its two nibbles. -/
theorem eq_of_nibbles_eq {b b' : Byte} (hhigh : highNibble b = highNibble b')
    (hlow : lowNibble b = lowNibble b') : b = b' := by
  rw [← BitVec.toNat_inj] at *
  rw [highNibble_toNat, highNibble_toNat] at hhigh
  rw [lowNibble_toNat, lowNibble_toNat] at hlow
  omega

theorem toList_getElem?_eq_romRead (rom : HexRom) (i : BitVec 4) :
    rom.toList[i.toNat]? = some (romRead rom i) := by
  have hlt : i.toNat < 16 := i.isLt
  simp [romRead, hlt]

theorem toList_getElem?_eq_highChar (rom : HexRom) (b : Byte) :
    rom.toList[b.toNat / 16]? = some (highChar rom b) := by
  rw [← highNibble_toNat, toList_getElem?_eq_romRead, highChar]

theorem toList_getElem?_eq_lowChar (rom : HexRom) (b : Byte) :
    rom.toList[b.toNat % 16]? = some (lowChar rom b) := by
  rw [← lowNibble_toNat, toList_getElem?_eq_romRead, lowChar]

/-- The entries of the table are the ASCII codes of the uppercase digits (10_state.md R10). -/
theorem romRead_hexDigits_toNat : ∀ i : BitVec 4, (romRead hexDigits i).toNat =
    if i.toNat < 10 then 0x30 + i.toNat else 0x41 + (i.toNat - 10) := by
  decide

/-- The 16 digits are different characters. -/
theorem romRead_hexDigits_injective : Function.Injective (romRead hexDigits) := by
  intro i j h
  rw [← BitVec.toNat_inj] at *
  rw [romRead_hexDigits_toNat, romRead_hexDigits_toNat] at h
  split_ifs at h
  all_goals omega

/-! ### `HX.BYTE` -/

theorem exec_hxByte (b : Byte) (s : State) :
    exec (.hxByte b) s =
      .next (completeCommand (.ofChars (highChar s.hexRom b) (lowChar s.hexRom b)) (beginCommand s)) := rfl

/-- Settles O8: the two characters are the table entries of the two nibbles. -/
theorem hxByteDrivesTwoCharacters : Obligations.HxByteDrivesTwoCharacters := by
  intro b s src dst
  refine ⟨decode_hxByte_word b src dst, highChar s.hexRom b, lowChar s.hexRom b, ?_,
    toList_getElem?_eq_highChar s.hexRom b, toList_getElem?_eq_lowChar s.hexRom b⟩
  rw [exec_hxByte, completeCommand_beginCommand, Response.ofChars]

/-- Different bytes have different pairs of digits (42_hexcodec.md R81). -/
theorem eq_of_hexDigits_eq {b b' : Byte} (hhigh : highChar hexDigits b = highChar hexDigits b')
    (hlow : lowChar hexDigits b = lowChar hexDigits b') : b = b' :=
  eq_of_nibbles_eq (romRead_hexDigits_injective hhigh) (romRead_hexDigits_injective hlow)

/-- Settles O9: `romRead_hexDigits_toNat` gives the digits; the 16 digits differ, so the pair tells both
nibbles and with them the byte. -/
theorem hxByteGivesUppercaseDigitsInjectively : Obligations.HxByteGivesUppercaseDigitsInjectively := by
  constructor
  · intro b s hrom
    refine ⟨_, _, _, exec_hxByte b s, rfl, rfl, ?_, ?_⟩
    · rw [hrom, highChar, romRead_hexDigits_toNat, highNibble_toNat]
    · rw [hrom, lowChar, romRead_hexDigits_toNat, lowNibble_toNat]
  · intro b b' s s' t t' hrom hrom' hexec hexec' hchi hclo
    rw [exec_hxByte, hrom] at hexec
    rw [exec_hxByte, hrom'] at hexec'
    cases hexec
    cases hexec'
    exact eq_of_hexDigits_eq (Option.some.inj hchi) (Option.some.inj hclo)

/-! ### `HX.BUF` -/

/-- An `HX.BUF` that commits no violation completes with what its loop leaves, and counts two characters
for each byte. -/
theorem exec_hxBuf_of_noViolation {s : State} {src dst : Option Nat} {n : Half}
    (h : sidePortViolation s.platform src dst n = none) :
    exec (.hxBuf src dst n) s =
      .next (completeCommand (.ofCount (BitVec.ofNat 17 (2 * n.toNat)))
        (bufLoop n.toNat (src.getD 0) (dst.getD 0) 0#17 (beginCommand s)).2) := by
  rcases execHxBuf_cases src dst n s with ⟨r, hr, -⟩ | ⟨-, hexec⟩
  · rw [h] at hr
    cases hr
  · rw [bufLoop_count, BitVec.zero_add] at hexec
    exact hexec

/-- Settles O11: with `n = 0` there is no violation, and the loop makes no pass. -/
theorem hxBufOfNoBytesOnlyAnswersZero : Obligations.HxBufOfNoBytesOnlyAnswersZero := by
  intro s src dst
  rw [exec_hxBuf_of_noViolation (sidePortViolation_zero s.platform src dst)]
  exact congrArg _ (completeCommand_beginCommand (.ofCount 0#17) s)

section Contract

variable {s : State} {src dst : Nat} {n : Half} (contract : BufContract s.platform src dst n.toNat)
include contract

/-- An `HX.BUF` inside the contract completes with what its loop leaves. -/
theorem exec_hxBuf_of_contract :
    exec (.hxBuf (some src) (some dst) n) s =
      .next (completeCommand (.ofCount (BitVec.ofNat 17 (2 * n.toNat)))
        (bufLoop n.toNat src dst 0#17 (beginCommand s)).2) := by
  refine exec_hxBuf_of_noViolation ?_
  rw [sidePortViolation_some, bufferViolation_none_iff]
  exact .inr contract

/-- The one state in which an `HX.BUF` inside the contract can complete. -/
theorem eq_of_exec_hxBuf {t : State} (h : exec (.hxBuf (some src) (some dst) n) s = .next t) :
    t = completeCommand (.ofCount (BitVec.ofNat 17 (2 * n.toNat)))
      (bufLoop n.toNat src dst 0#17 (beginCommand s)).2 := by
  rw [exec_hxBuf_of_contract contract] at h
  injection h with h
  exact h.symm

/-- The text that an `HX.BUF` leaves (42_hexcodec.md R82), from the source as it was before. -/
theorem hxBuf_text {i : Nat} (hi : i < n.toNat) :
    (bufLoop n.toNat src dst 0#17 (beginCommand s)).2.mem.read (dst + 2 * i) =
        highChar s.hexRom (s.mem.read (src + i)) ∧
      (bufLoop n.toNat src dst 0#17 (beginCommand s)).2.mem.read (dst + 2 * i + 1) =
        lowChar s.hexRom (s.mem.read (src + i)) :=
  bufLoop_read_inside n.toNat src dst 0#17 (beginCommand s) contract.disjoint i hi

/-- The accesses that an `HX.BUF` makes (20_memory.md R25), its own only: the record begins empty. -/
theorem hxBuf_bus :
    (bufLoop n.toNat src dst 0#17 (beginCommand s)).2.bus =
      bufAccesses s.hexRom s.mem src dst n.toNat :=
  bufLoop_bus n.toNat src dst 0#17 (beginCommand s) contract.disjoint

end Contract

/-- The completion of an `HX.BUF` changes the ports, memory and the record of accesses, nothing else. -/
theorem completeCommand_bufLoop_frame (r : Response) (left sp dp : Nat) (cnt : Count) (s : State) :
    completeCommand r (bufLoop left sp dp cnt (beginCommand s)).2 =
      { s with
        cw := none, src := none, dst := none
        mem := (bufLoop left sp dp cnt (beginCommand s)).2.mem
        bus := (bufLoop left sp dp cnt (beginCommand s)).2.bus
        rsp := r } :=
  congrArg (completeCommand r) (bufLoop_frame left sp dp cnt (beginCommand s))

/-- `COUNT` does not wrap: 17 bits hold `2n` (42_hexcodec.md R82). -/
theorem count_toNat (n : Half) : (BitVec.ofNat 17 (2 * n.toNat)).toNat = 2 * n.toNat := by
  have hlt := n.isLt
  rw [BitVec.toNat_ofNat]
  omega

/-- Settles O10: the loop leaves the text inside the destination and every byte outside it alone. -/
theorem hxBufConvertsTheBuffer : Obligations.HxBufConvertsTheBuffer := by
  intro s src dst n contract
  refine ⟨decode_hxBuf_word n _ _, _, _, exec_hxBuf_of_contract contract, rfl, count_toNat n, ?_, ?_, ?_⟩
  · intro i hi
    obtain ⟨hhigh, hlow⟩ := hxBuf_text contract hi
    rw [completeCommand_mem, hhigh, hlow]
    exact ⟨toList_getElem?_eq_highChar _ _, toList_getElem?_eq_lowChar _ _⟩
  · exact fun a ha => bufLoop_read_outside n.toNat src dst 0#17 (beginCommand s) a ha
  · exact completeCommand_bufLoop_frame _ n.toNat src dst 0#17 s

/-- Settles O12: both operations take their characters from the table by the same two nibbles. -/
theorem hxBufIsTheConcatenationOfHxByte : Obligations.HxBufIsTheConcatenationOfHxByte := by
  intro s t src dst n contract hexec i hi
  obtain ⟨hhigh, hlow⟩ := hxBuf_text contract hi
  refine ⟨_, exec_hxByte _ s, ?_⟩
  rw [eq_of_exec_hxBuf contract hexec, completeCommand_mem, hhigh, hlow]
  exact ⟨rfl, rfl⟩

/-! ### The accesses of `HX.BUF` -/

/-- The address of a read access. -/
def readAddress : Access → Option Nat
  | .read a => some a
  | .write _ _ => none

/-- The address of a write access. -/
def writeAddress : Access → Option Nat
  | .read _ => none
  | .write a _ => some a

/-- The accesses for one more source byte come after those for the bytes before it. -/
theorem bufAccesses_succ (rom : HexRom) (m : Memory) (src dst n : Nat) :
    bufAccesses rom m src dst (n + 1) = bufAccesses rom m src dst n ++
      [.read (src + n),
       .write (dst + 2 * n) (highChar rom (m.read (src + n))),
       .write (dst + 2 * n + 1) (lowChar rom (m.read (src + n)))] := by
  simp [bufAccesses, List.range_succ]

theorem filterMap_readAddress_bufAccesses (rom : HexRom) (m : Memory) (src dst n : Nat) :
    (bufAccesses rom m src dst n).filterMap readAddress = (List.range n).map (fun i => src + i) := by
  induction n with
  | zero => rfl
  | succ n ih =>
    rw [bufAccesses_succ, List.filterMap_append, ih, List.range_succ, List.map_append]
    rfl

theorem filterMap_writeAddress_bufAccesses (rom : HexRom) (m : Memory) (src dst n : Nat) :
    (bufAccesses rom m src dst n).filterMap writeAddress =
      (List.range (2 * n)).map (fun j => dst + j) := by
  induction n with
  | zero => rfl
  | succ n ih =>
    rw [bufAccesses_succ, List.filterMap_append, ih, Nat.mul_succ, List.range_succ, List.range_succ,
      List.append_assoc, List.map_append]
    rfl

/-- Settles O13: the record is `bufAccesses`, whose reads and whose writes rise one address at a time. -/
theorem hxBufAccessesEachAddressOnceInOrder : Obligations.HxBufAccessesEachAddressOnceInOrder := by
  intro s t src dst n contract hexec
  have hbus : t.bus = bufAccesses s.hexRom s.mem src dst n.toNat := by
    rw [eq_of_exec_hxBuf contract hexec, completeCommand_bus, hxBuf_bus contract]
  rw [hbus]
  exact ⟨rfl, filterMap_readAddress_bufAccesses .., filterMap_writeAddress_bufAccesses ..⟩

end Sys2Proof.Proofs.HexCodec

namespace Sys2Proof.Proofs.Decoder

open Sys2Proof.Laws Sys2Proof.Laws.EncodeSelectsRow Sys2Proof.Proofs.TimeoutCodec
open Sys2Proof.Proofs.HexCodec

/-! ### Decoding what was encoded -/

/-- Settles O1: `decode` reads each operation's word back (30_encoding.md R38), and `encode` puts the side
ports where `decode` takes them. -/
theorem decodeOfEncodeIsTheInstruction : Obligations.DecodeOfEncodeIsTheInstruction := by
  intro i
  cases i with
  | tcDec code => exact decode_tcDec_word code none none
  | tcEnc ticks => exact decode_tcEnc_word ticks none none
  | hxByte b => exact decode_hxByte_word b none none
  | hxBuf src dst n => exact decode_hxBuf_word n src dst

/-! ### Encoding what was decoded -/

/-- A command word is its two fields (30_encoding.md R36). -/
theorem commandWord_fields (w : CommandWord) : commandWord (opField w) (argField w) = w := by
  unfold commandWord opField argField
  ext i hi
  by_cases h16 : i < 16
  · simp [h16, BitVec.getLsbD_eq_getElem hi]
  · simp [h16, show 16 + (i - 16) = i by omega, BitVec.getLsbD_eq_getElem hi,
      show i ≤ 17 by omega]

/-- Where the upper half of `arg` is 0, the byte operand is all of `arg`. -/
theorem setWidth_argLow {w : CommandWord} (h : argHigh w = 0#8) :
    (argLow w).setWidth 16 = argField w := by
  obtain ⟨-, harg, hhigh, hlow⟩ := field_values w
  rw [h, BitVec.toNat_ofNat] at hhigh
  rw [← BitVec.toNat_inj, BitVec.toNat_setWidth]
  omega

/-- Settles O2: the row of the decoded operation gives the selector and the operand, and `commandWord` puts
the two fields together again. -/
theorem encodeOfDecodeIsTheWord : Obligations.EncodeOfDecodeIsTheWord := by
  intro c i h
  have hword := commandWord_fields c.cw
  rcases decode_instr_cases h with
    ⟨hop, hhigh, rfl⟩ | ⟨hop, rfl⟩ | ⟨hop, hhigh, rfl⟩ | ⟨hop, rfl⟩
  · rw [hop, ← setWidth_argLow hhigh] at hword
    exact ⟨hword, fun _ _ _ => nofun⟩
  · rw [hop] at hword
    exact ⟨hword, fun _ _ _ => nofun⟩
  · rw [hop, ← setWidth_argLow hhigh] at hword
    exact ⟨hword, fun _ _ _ => nofun⟩
  · rw [hop] at hword
    refine ⟨hword, fun src dst n heq => ?_⟩
    cases heq
    exact ⟨rfl, rfl⟩

/-! ### The rows and the reserved words -/

/-- The selector of an operation's row (30_encoding.md R38). -/
def selectorOf : Instr → BitVec 2
  | .tcDec _ => 0b00#2
  | .tcEnc _ => 0b01#2
  | .hxByte _ => 0b10#2
  | .hxBuf _ _ _ => 0b11#2

/-- The words of 30_encoding.md R40: a byte operand with a nonzero upper half of `arg`. -/
def Reserved (w : CommandWord) : Prop :=
  (opField w = 0b00#2 ∨ opField w = 0b10#2) ∧ argHigh w ≠ 0#8

theorem reserved_iff_numeric (w : CommandWord) :
    Reserved w ↔ (w.toNat / 65536 = 0 ∨ w.toNat / 65536 = 2) ∧ w.toNat / 256 % 256 ≠ 0 := by
  obtain ⟨hop, -, hhigh, -⟩ := field_values w
  simp [Reserved, ← BitVec.toNat_inj, hop, hhigh]

theorem selectorOf_of_decode {c : Command} {i : Instr} (h : decode c = .instr i) :
    opField c.cw = selectorOf i ∧ ¬ Reserved c.cw := by
  rcases decode_instr_cases h with
    ⟨hop, hhigh, rfl⟩ | ⟨hop, rfl⟩ | ⟨hop, hhigh, rfl⟩ | ⟨hop, rfl⟩
  · exact ⟨hop, fun hr => hr.2 hhigh⟩
  · exact ⟨hop, by simp [Reserved, hop]⟩
  · exact ⟨hop, fun hr => hr.2 hhigh⟩
  · exact ⟨hop, by simp [Reserved, hop]⟩

theorem reserved_of_decode {c : Command} {w : CommandWord} (h : decode c = .reservedWord w) :
    w = c.cw ∧ Reserved c.cw := by
  obtain ⟨hw, hhigh, hop⟩ := decode_reserved_cases h
  exact ⟨hw, hop, hhigh⟩

theorem decode_of_reserved {c : Command} (h : Reserved c.cw) : decode c = .reservedWord c.cw := by
  cases hd : decode c with
  | instr i => exact absurd h (selectorOf_of_decode hd).2
  | reservedWord w => rw [(reserved_of_decode hd).1]

theorem commandWord_inj {op op' : BitVec 2} {arg arg' : Half} :
    commandWord op arg = commandWord op' arg' ↔ op = op' ∧ arg = arg' := by
  refine ⟨fun h => ⟨?_, ?_⟩, fun ⟨hop, harg⟩ => by rw [hop, harg]⟩
  · rw [← opField_commandWord op arg, h, opField_commandWord]
  · rw [← argField_commandWord op arg, h, argField_commandWord]

theorem setWidth_shiftLeft_eq_zero (b : Byte) : (b.setWidth 16 <<< 8 : Half) = 0 ↔ b = 0#8 := by
  have hlt := b.isLt
  simp [← BitVec.toNat_inj, Nat.shiftLeft_eq]
  omega

/-- The row of an operand of 16 bits: the mask keeps the selector. -/
theorem selectedBy_halfRow (op : BitVec 2) (w : CommandWord) :
    EncodingRow.selectedBy ⟨0x30000#18, commandWord op 0⟩ w = true ↔ opField w = op := by
  rw [EncodingRow.selectedBy, decide_eq_true_eq, mask_selector, commandWord_inj]
  exact and_iff_left rfl

/-- The row of a byte operand: the mask keeps the selector and the upper half of `arg`. -/
theorem selectedBy_byteRow (op : BitVec 2) (w : CommandWord) :
    EncodingRow.selectedBy ⟨0x3FF00#18, commandWord op 0⟩ w = true ↔ opField w = op ∧ argHigh w = 0#8 := by
  rw [EncodingRow.selectedBy, decide_eq_true_eq, mask_selector_high, commandWord_inj,
    setWidth_shiftLeft_eq_zero]

/-- A word selects the row of its selector, unless it is reserved. -/
theorem selectedBy_encodingRow_iff (i : Instr) (w : CommandWord) :
    (encodingRow i).selectedBy w = true ↔ opField w = selectorOf i ∧ ¬ Reserved w := by
  cases i with
  | tcDec code =>
    exact (selectedBy_byteRow 0b00#2 w).trans (and_congr_right fun hop => by simp [Reserved, hop])
  | tcEnc ticks =>
    exact (selectedBy_halfRow 0b01#2 w).trans (by simp +contextual [Reserved, selectorOf])
  | hxByte b =>
    exact (selectedBy_byteRow 0b10#2 w).trans (and_congr_right fun hop => by simp [Reserved, hop])
  | hxBuf src dst n =>
    exact (selectedBy_halfRow 0b11#2 w).trans (by simp +contextual [Reserved, selectorOf])

/-- The selector of an operation fixes its row: mask and match are functions of it. -/
theorem encodingRow_eq (i : Instr) :
    encodingRow i =
      ⟨if selectorOf i = 0b00#2 ∨ selectorOf i = 0b10#2 then 0x3FF00#18 else 0x30000#18,
        commandWord (selectorOf i) 0⟩ := by
  cases i <;> simp [encodingRow, selectorOf, commandWord]

/-- No two rows have one selector. -/
theorem encodingRow_eq_of_selectorOf {i j : Instr} (h : selectorOf i = selectorOf j) :
    encodingRow i = encodingRow j := by
  rw [encodingRow_eq, encodingRow_eq, h]

/-- Settles O4: a word selects the row of its selector or, reserved, none; decode answers alike. -/
theorem everyWordSelectsOneRowOrIsReserved : Obligations.EveryWordSelectsOneRowOrIsReserved := by
  intro w src dst
  split
  · next i hd =>
    obtain ⟨hop, hfree⟩ := selectorOf_of_decode hd
    refine ⟨(selectedBy_encodingRow_iff i w).2 ⟨hop, hfree⟩, fun j hj => ?_,
      (reserved_iff_numeric w).not.1 hfree⟩
    exact encodingRow_eq_of_selectorOf (((selectedBy_encodingRow_iff j w).1 hj).1.symm.trans hop)
  · next x hd =>
    obtain ⟨hx, hreserved⟩ := reserved_of_decode hd
    refine ⟨hx, fun j => ?_, (reserved_iff_numeric w).1 hreserved⟩
    rw [Bool.eq_false_iff, Ne, selectedBy_encodingRow_iff]
    exact fun hj => hj.2 hreserved

/-- Settles O5: the decoder runs on each word. -/
theorem wordsWrittenOutDecode : Obligations.WordsWrittenOutDecode := by
  refine ⟨?_, ?_, ?_, ?_, ?_, ?_⟩
  all_goals decide

end Sys2Proof.Proofs.Decoder

namespace Sys2Proof.Proofs.Operations

open Sys2Proof.Machine Sys2Proof.Proofs.TimeoutCodec Sys2Proof.Proofs.HexCodec

/-! ### The contract of `HX.BUF` -/

theorem toNat_eq_zero_iff (n : Half) : n.toNat = 0 ↔ n = 0#16 := by
  rw [← BitVec.toNat_inj]; rfl

/-- The port-level check finds nothing exactly where there is nothing to convert, or both side ports hold an
address and the contract holds. -/
theorem sidePortViolation_none_iff (p : Platform) (src dst : Option Nat) (n : Half) :
    sidePortViolation p src dst n = none ↔
      n = 0#16 ∨ ∃ a b, src = some a ∧ dst = some b ∧ BufContract p a b n.toNat := by
  by_cases hn : n = 0#16
  · simp [hn]
  have hpos : n.toNat ≠ 0 := (toNat_eq_zero_iff n).not.2 hn
  constructor
  · intro h
    obtain ⟨a, b, rfl, rfl, hnone⟩ := ports_of_noViolation hn h
    exact .inr ⟨a, b, rfl, rfl, ((bufferViolation_none_iff p a b _).1 hnone).resolve_left hpos⟩
  · rintro (h | ⟨a, b, rfl, rfl, contract⟩)
    · exact absurd h hn
    · rw [sidePortViolation_some, bufferViolation_none_iff]
      exact .inr contract

/-- Only an `HX.BUF` with a byte to convert can violate the contract (60_exceptions.md R91). -/
theorem contractViolation_none_iff (p : Platform) (i : Instr) :
    contractViolation p i = none ↔ ∀ src dst n, i = .hxBuf src dst n →
      n = 0#16 ∨ ∃ a b, src = some a ∧ dst = some b ∧ BufContract p a b n.toNat := by
  cases i with
  | hxBuf src dst n =>
    rw [contractViolation, sidePortViolation_none_iff]
    exact ⟨fun h _ _ _ heq => by cases heq; exact h, fun h => h _ _ _ rfl⟩
  | _ => simp [contractViolation]

theorem exists_not_of_allFrom_false {ok : Nat → Bool} {base len : Nat}
    (h : allFrom ok base len = false) : ∃ i, i < len ∧ ok (base + i) = false := by
  rw [← Bool.not_eq_true, allFrom_iff] at h
  push Not at h
  simpa using h

/-! ### What an operation answers, said once -/

/-- An operation other than `HX.BUF` completes with a response, and no access between. -/
theorem exec_portOnly {i : Instr} (h : ∀ src dst n, i ≠ .hxBuf src dst n) (s : State) :
    ∃ r, exec i s = .next (completeCommand r (beginCommand s)) := by
  cases i with
  | tcDec code => exact ⟨_, exec_tcDec code s⟩
  | tcEnc ticks => exact ⟨_, exec_tcEnc ticks s⟩
  | hxByte b => exact ⟨_, exec_hxByte b s⟩
  | hxBuf src dst n => exact absurd rfl (h src dst n)

theorem exec_hxBuf_refused_iff (s : State) (src dst : Option Nat) (n : Half) (r : Refusal) :
    exec (.hxBuf src dst n) s = .refused r ↔ sidePortViolation s.platform src dst n = some r := by
  rcases execHxBuf_cases src dst n s with ⟨r', hviolation, hexec⟩ | ⟨hviolation, hexec⟩
  · rw [hviolation, Option.some_inj]
    exact ⟨fun h => by injection hexec.symm.trans h, fun h => by rw [← h]; exact hexec⟩
  · rw [hviolation]
    exact ⟨fun h => (by cases hexec.symm.trans h), nofun⟩

/-- The one way in which an `HX.BUF` completes. -/
theorem of_exec_hxBuf_next {src dst : Option Nat} {n : Half} {s t : State}
    (h : exec (.hxBuf src dst n) s = .next t) :
    sidePortViolation s.platform src dst n = none ∧
      t = completeCommand (.ofCount (BitVec.ofNat 17 (2 * n.toNat)))
        (bufLoop n.toNat (src.getD 0) (dst.getD 0) 0#17 (beginCommand s)).2 := by
  cases hviolation : sidePortViolation s.platform src dst n with
  | some r => cases h.symm.trans ((exec_hxBuf_refused_iff s src dst n r).2 hviolation)
  | none =>
    rw [exec_hxBuf_of_noViolation hviolation] at h
    injection h with h
    exact ⟨rfl, h.symm⟩

/-- Inside the contract every operation completes: the block is idle and a port is driven. -/
theorem exec_completes {i : Instr} {s : State} (h : contractViolation s.platform i = none) :
    ∃ t, exec i s = .next t ∧ t.cw = none ∧ t.rsp ≠ {} := by
  cases i with
  | tcDec code => exact ⟨_, exec_tcDec code s, rfl, by simp [Response.ofTicks]⟩
  | tcEnc ticks => exact ⟨_, exec_tcEnc ticks s, rfl, by simp [Response.ofCode]⟩
  | hxByte b => exact ⟨_, exec_hxByte b s, rfl, by simp [Response.ofChars]⟩
  | hxBuf src dst n => exact ⟨_, exec_hxBuf_of_noViolation h, rfl, by simp [Response.ofCount]⟩

/-! ### The refusals of `HX.BUF` -/

/-- Settles O14: an `HX.BUF` is refused with what the check finds, and it finds nothing exactly where there
is nothing to convert or the contract holds. -/
theorem hxBufRefusedExactlyOutsideTheContract : Obligations.HxBufRefusedExactlyOutsideTheContract := by
  intro s src dst n
  simp only [exec_hxBuf_refused_iff, sidePortViolation_some]
  rw [← Option.ne_none_iff_exists', Ne, bufferViolation_none_iff, toNat_eq_zero_iff, not_or]

/-- Settles O15: at each branch of the check the failed test is the violation that the branch names. -/
theorem hxBufRefusalNamesAViolation : Obligations.HxBufRefusalNamesAViolation := by
  intro s src dst n r h
  rw [exec_hxBuf_refused_iff, sidePortViolation_some, bufferViolation] at h
  split_ifs at h with hzero hfit hapart hplain hread hwrite
  · cases h
    simpa using hfit
  · cases h
    simp only [rangesApart, Bool.not_eq_true', Bool.or_eq_false_iff, decide_eq_false_iff_not] at hapart
    exact ⟨max src dst, by omega, by omega, by omega, by omega⟩
  · cases h
    rw [Bool.not_eq_true', Bool.and_eq_false_iff] at hplain
    rcases hplain with hsource | hdest
    · obtain ⟨i, hi, hdevice⟩ := exists_not_of_allFrom_false hsource
      exact ⟨src + i, by simpa using hdevice, .inl ⟨by omega, by omega⟩⟩
    · obtain ⟨j, hj, hdevice⟩ := exists_not_of_allFrom_false hdest
      exact ⟨dst + j, by simpa using hdevice, .inr ⟨by omega, by omega⟩⟩
  · cases h
    exact exists_not_of_allFrom_false (by simpa using hread)
  · cases h
    exact exists_not_of_allFrom_false (by simpa using hwrite)

/-- Where there is a byte to convert, an undriven side port is found (log 6). -/
theorem sidePortViolation_of_undriven (p : Platform) {src dst : Option Nat} {n : Half} (hn : n ≠ 0#16)
    (hport : src = none ∨ dst = none) : sidePortViolation p src dst n = some .sidePortNotDriven := by
  unfold sidePortViolation
  rw [if_neg hn]
  rcases hport with rfl | rfl
  · rfl
  · cases src <;> rfl

/-- Settles O16: the undriven port is what the check finds. -/
theorem hxBufWithoutAnAddressIsRefused : Obligations.HxBufWithoutAnAddressIsRefused := by
  intro s src dst n hn hport
  rw [exec_hxBuf_refused_iff]
  exact sidePortViolation_of_undriven s.platform hn hport

/-! ### The frames -/

/-- Settles O17: between the begin and the end of a port-only operation there is no access. -/
theorem portOnlyOperationsLeaveMemoryAlone : Obligations.PortOnlyOperationsLeaveMemoryAlone := by
  intro i s t hi hexec
  obtain ⟨r, hr⟩ := exec_portOnly hi s
  cases hexec.symm.trans hr
  exact ⟨fun _ => rfl, rfl, rfl, rfl, rfl, rfl, rfl, rfl, rfl, rfl⟩

/-- The destination of an `HX.BUF` that completes, as `bufLoop` uses it: an undriven port stands for an empty
range (42_hexcodec.md R83). -/
theorem not_mem_dest_of_noViolation {p : Platform} {src dst : Option Nat} {n : Half} {a : Nat}
    (h : sidePortViolation p src dst n = none)
    (ha : ∀ d, dst = some d → ¬ (d ≤ a ∧ a < d + 2 * n.toNat)) :
    ¬ (dst.getD 0 ≤ a ∧ a < dst.getD 0 + 2 * n.toNat) := by
  rcases (sidePortViolation_none_iff p src dst n).1 h with rfl | ⟨-, b, -, rfl, -⟩
  · simp
  · exact ha b rfl

/-- Settles O18: the loop leaves every byte outside the destination alone, and the completion the rest. -/
theorem hxBufLeavesAllElseAlone : Obligations.HxBufLeavesAllElseAlone := by
  intro src dst n s t hexec
  obtain ⟨hviolation, rfl⟩ := of_exec_hxBuf_next hexec
  refine ⟨fun a ha => ?_, completeCommand_bufLoop_frame _ n.toNat _ _ 0#17 s⟩
  exact bufLoop_read_outside n.toNat _ _ 0#17 (beginCommand s) a (not_mem_dest_of_noViolation hviolation ha)

/-- Whatever the operation, its completion changes the ports, memory and the record of accesses only. -/
theorem exec_frame {i : Instr} {s t : State} (h : exec i s = .next t) :
    t = { s with cw := none, src := none, dst := none, mem := t.mem, bus := t.bus, rsp := t.rsp } := by
  cases i with
  | tcDec code => cases h; rfl
  | tcEnc ticks => cases h; rfl
  | hxByte b => cases h; rfl
  | hxBuf src dst n => exact (hxBufLeavesAllElseAlone src dst n s t h).2

/-- Settles O19: each meaning completes with a response of its own ports. -/
theorem anOperationDrivesItsOwnPortsOnly : Obligations.AnOperationDrivesItsOwnPortsOnly := by
  intro i s t h
  cases i with
  | tcDec code => cases h; exact ⟨_, rfl⟩
  | tcEnc ticks => cases h; exact ⟨_, rfl⟩
  | hxByte b => cases h; exact ⟨_, _, rfl⟩
  | hxBuf src dst n =>
    obtain ⟨-, rfl⟩ := of_exec_hxBuf_next h
    exact ⟨_, rfl⟩

/-! ### No history -/

theorem bufAccesses_congr {rom : HexRom} {m m' : Memory} {src dst n : Nat}
    (h : ∀ k, k < n → m'.read (src + k) = m.read (src + k)) :
    bufAccesses rom m' src dst n = bufAccesses rom m src dst n :=
  List.flatMap_congr fun i hi => by rw [h i (List.mem_range.1 hi)]

/-- Two runs of an `HX.BUF` inside the contract on the same source bytes make the same accesses and leave
the same text. -/
theorem hxBuf_same_of_same_source {s s' : State} {src dst : Nat} {n : Half}
    (contract : BufContract s.platform src dst n.toNat) (hplatform : s'.platform = s.platform)
    (hrom : s'.hexRom = s.hexRom)
    (hsource : ∀ k, k < n.toNat → s'.mem.read (src + k) = s.mem.read (src + k)) :
    (bufLoop n.toNat src dst 0#17 (beginCommand s')).2.bus =
        (bufLoop n.toNat src dst 0#17 (beginCommand s)).2.bus ∧
      ∀ j, j < 2 * n.toNat → (bufLoop n.toNat src dst 0#17 (beginCommand s')).2.mem.read (dst + j) =
        (bufLoop n.toNat src dst 0#17 (beginCommand s)).2.mem.read (dst + j) := by
  have contract' : BufContract s'.platform src dst n.toNat := hplatform ▸ contract
  refine ⟨?_, fun j hj => ?_⟩
  · rw [hxBuf_bus contract', hxBuf_bus contract, hrom, bufAccesses_congr hsource]
  · have hi : j / 2 < n.toNat := by omega
    obtain ⟨hhigh, hlow⟩ := hxBuf_text contract hi
    obtain ⟨hhigh', hlow'⟩ := hxBuf_text contract' hi
    rw [hrom, hsource _ hi] at hhigh' hlow'
    rcases Nat.mod_two_eq_zero_or_one j with heven | hodd
    · rw [show dst + j = dst + 2 * (j / 2) by omega, hhigh', hhigh]
    · rw [show dst + j = dst + 2 * (j / 2) + 1 by omega, hlow', hlow]

/-- Settles O20: the port-only operations read no memory; an `HX.BUF` with nothing to convert neither; any
other makes its accesses and its text from the source bytes and the table. -/
theorem noOperationDependsOnHistory : Obligations.NoOperationDependsOnHistory := by
  intro i s s' t hexec hplatform hrom hsource
  cases i with
  | tcDec code => cases hexec; exact ⟨_, exec_tcDec code s', rfl, rfl, fun _ _ _ => nofun⟩
  | tcEnc ticks => cases hexec; exact ⟨_, exec_tcEnc ticks s', rfl, rfl, fun _ _ _ => nofun⟩
  | hxByte b =>
    cases hexec
    refine ⟨_, exec_hxByte b s', ?_, rfl, fun _ _ _ => nofun⟩
    rw [hrom]
    rfl
  | hxBuf src dst n =>
    obtain ⟨hviolation, rfl⟩ := of_exec_hxBuf_next hexec
    refine ⟨_, exec_hxBuf_of_noViolation (hplatform ▸ hviolation), rfl, ?_⟩
    rcases (sidePortViolation_none_iff s.platform src dst n).1 hviolation with
      rfl | ⟨a, b, rfl, rfl, contract⟩
    · exact ⟨rfl, fun _ _ _ heq j hj => by cases heq; exact absurd hj (Nat.not_lt_zero j)⟩
    · obtain ⟨hbus, htext⟩ := hxBuf_same_of_same_source contract hplatform hrom (hsource a (some b) n rfl)
      exact ⟨hbus, fun _ _ _ heq => by cases heq; exact htext⟩

end Sys2Proof.Proofs.Operations

namespace Sys2Proof.Proofs.RoundTripError

open Sys2Proof.Machine Sys2Proof.Proofs.TimeoutCodec Sys2Proof.Proofs.TimeoutCodecLaws

/-- The error of the round trip is what encode shifts out (41_timeoutcodec_laws.md R65). -/
theorem roundTrip_error (t : Half) :
    t.toNat - (roundTrip t).toNat = t.toNat % 2 ^ closedShift t.toNat := by
  have hle := Nat.mod_le t.toNat (2 ^ closedShift t.toNat)
  rw [roundTrip_toNat_eq_sub]
  omega

/-- The rows of the error table are the ranges of the total shift (41_timeoutcodec_laws.md R62). -/
theorem closedShift_of_errorTable {row : Nat × Nat × Nat × Nat} (hrow : row ∈ errorTable) {t : Nat}
    (hfrom : row.1 ≤ t) (hto : t ≤ row.2.1) :
    (closedShift t = 2 ∧ 16 ≤ t ∧ row.2.2.1 = 3 ∧ row.2.2.2 = 19) ∨
    (closedShift t = 6 ∧ 68 ≤ t ∧ row.2.2.1 = 63 ∧ row.2.2.2 = 127) ∨
    (closedShift t = 10 ∧ 1088 ≤ t ∧ row.2.2.1 = 1023 ∧ row.2.2.2 = 2047) ∨
    (closedShift t = 14 ∧ 17408 ≤ t ∧ row.2.2.1 = 16383 ∧ row.2.2.2 = 32767) := by
  have hshift := closedShift_ranges t
  simp only [errorTable, List.mem_cons, List.not_mem_nil, or_false] at hrow
  rcases hrow with rfl | rfl | rfl | rfl
  all_goals dsimp only at hto
  · exact .inl ⟨by omega, hfrom, rfl, rfl⟩
  · exact .inr (.inl ⟨by omega, hfrom, rfl, rfl⟩)
  · exact .inr (.inr (.inl ⟨by omega, hfrom, rfl, rfl⟩))
  · exact .inr (.inr (.inr ⟨by omega, hfrom, rfl, rfl⟩))

/-- Settles O29: the error is a remainder, largest where all the bits shifted out are 1; in each range that
is first so at the table's tick count, and there the tick count is smallest. -/
theorem roundTripErrorIsBoundedAsTabulated : Obligations.RoundTripErrorIsBoundedAsTabulated := by
  refine ⟨fun t ht => ?_, fun row hrow t hfrom hto => ?_, fun t => ?_⟩
  · rw [roundTrip_eq_self_iff, closedShift, if_pos ht, pow_zero, Nat.mod_one]
  · rw [roundTrip_error]
    rcases closedShift_of_errorTable hrow hfrom hto with
      ⟨hs, hlow, hmax, hfirst⟩ | ⟨hs, hlow, hmax, hfirst⟩ | ⟨hs, hlow, hmax, hfirst⟩ | ⟨hs, hlow, hmax, hfirst⟩
    all_goals
      rw [hs, hmax, hfirst]
      omega
  · have hlt := t.isLt
    rw [roundTrip_error]
    rcases closedShift_ranges t.toNat with ⟨hs, h⟩ | ⟨hs, h⟩ | ⟨hs, h⟩ | ⟨hs, h⟩ | ⟨hs, h⟩
    all_goals
      rw [hs]
      omega

/-- Below the wrap the closed form of decode needs no remainder (41_timeoutcodec_laws.md R61). -/
theorem decTicks_toNat_of_lt {c : Byte} (hclass : classOf c ≠ 0)
    (h : (mantissaOf c + 1) * 4 ^ classOf c < 2 ^ 16) :
    (decTicks c).toNat = (mantissaOf c + 1) * 4 ^ classOf c := by
  rw [decTicks_toNat_of_classOf_ne_zero hclass, Nat.mod_eq_of_lt h]

/-- Within a class and below the wrap decode grows with the mantissa (41_timeoutcodec_laws.md R71). -/
theorem decTicks_lt_of_mantissaOf_lt {c1 c2 : Byte} (hclass : classOf c1 = classOf c2)
    (hmantissa : mantissaOf c1 < mantissaOf c2)
    (hwrap : (mantissaOf c2 + 1) * 4 ^ classOf c2 < 2 ^ 16) : decTicks c1 < decTicks c2 := by
  rw [BitVec.lt_def]
  by_cases hzero : classOf c2 = 0
  · rw [decTicks_toNat_eq_closedTicks, decTicks_toNat_eq_closedTicks, closedTicks, closedTicks,
      if_pos hzero, if_pos (hclass.trans hzero)]
    exact hmantissa
  · have hproduct : (mantissaOf c1 + 1) * 4 ^ classOf c2 < (mantissaOf c2 + 1) * 4 ^ classOf c2 :=
      Nat.mul_lt_mul_of_pos_right (by omega) (by positivity)
    rw [decTicks_toNat_of_lt (hclass ▸ hzero) (hclass ▸ hproduct.trans hwrap),
      decTicks_toNat_of_lt hzero hwrap, hclass]
    exact hproduct

/-- Settles O33: two codes for each cause of R71, evaluated, and `decTicks_lt_of_mantissaOf_lt`. -/
theorem decodeOverAllCodesIsNotMonotone : Obligations.DecodeOverAllCodesIsNotMonotone :=
  ⟨by decide, by decide, by decide, by decide, fun _ _ => decTicks_lt_of_mantissaOf_lt⟩

end Sys2Proof.Proofs.RoundTripError

namespace Sys2Proof.Proofs.Steps

open Sys2Proof.Machine Sys2Proof.Proofs.Decoder Sys2Proof.Proofs.TimeoutCodec Sys2Proof.Proofs.HexCodec
open Sys2Proof.Proofs.Operations

/-! ### One step, by what the timeline holds -/

theorem step_of_empty {s : State} (h : s.timeline = []) : step s = runBlock s := by
  rw [step, h]

theorem step_of_event {s : State} {e : Event} {rest : List Event} (h : s.timeline = e :: rest) :
    step s = handleEvent e { s with timeline := rest } := by
  rw [step, h]

theorem runBlock_of_decode {s : State} {c : Command} {i : Instr} (hc : commandInProgress s = some c)
    (hd : decode c = .instr i) : runBlock s = exec i s := by
  simp only [runBlock, hc, hd]

theorem runBlock_idle {s : State} (h : s.cw = none) : runBlock s = .next s := by
  simp only [runBlock, commandInProgress_idle h]

/-- Settles O36: both ways of letting the block run are `runBlock`, which decodes the ports. -/
theorem stepRunsTheCommandInProgress : Obligations.StepRunsTheCommandInProgress := by
  intro s w i hcw hd
  have hc := commandInProgress_busy hcw
  refine ⟨fun ht => ?_, fun rest ht => ?_⟩
  · rw [step_of_empty ht, runBlock_of_decode hc hd]
  · rw [step_of_event ht]
    exact runBlock_of_decode (s := { s with timeline := rest }) hc hd

/-- Settles O37: `runBlock` leaves an idle block as it is. -/
theorem idleBlockDoesNothing : Obligations.IdleBlockDoesNothing := by
  intro s hcw
  refine ⟨fun ht => ?_, fun rest ht => ?_⟩
  · rw [step_of_empty ht, runBlock_idle hcw]
  · rw [step_of_event ht]
    exact runBlock_idle (s := { s with timeline := rest }) hcw

/-! ### Issue -/

/-- An idle block refuses a command that commits a violation, and no other. -/
theorem step_issue_idle {s : State} {c : Command} {rest : List Event} (hcw : s.cw = none)
    (ht : s.timeline = .issue c :: rest) :
    (∀ r, commandViolation s.platform c = some r → step s = .refused r) ∧
    (commandViolation s.platform c = none → step s =
      .next { s with cw := some c.cw, src := c.src, dst := c.dst, rsp := {}, bus := [], timeline := rest }) := by
  rw [step_of_event ht, handleEvent, issue]
  simp only [hcw]
  exact ⟨fun r hr => by rw [hr]; rfl, fun hnone => by rw [hnone]; rfl⟩

/-- Settles O38: a command inside the contract commits no violation. -/
theorem idleBlockAcceptsEveryLegalCommand : Obligations.IdleBlockAcceptsEveryLegalCommand := by
  intro s c rest i hcw ht hd hcontract
  refine (step_issue_idle hcw ht).2 ?_
  rw [commandViolation_of_decode hd, contractViolation_none_iff]
  exact hcontract

/-- Settles O39: a reserved word decodes to no operation, which is V1. -/
theorem reservedWordIsRefusedWhenIssued : Obligations.ReservedWordIsRefusedWhenIssued := by
  intro s c rest hcw ht hop hhigh
  have hd := decode_of_reserved ((reserved_iff_numeric c.cw).2 ⟨hop, hhigh⟩)
  exact (step_issue_idle hcw ht).1 _ (by rw [commandViolation, hd])

/-- Settles O40: the check at issue is that of the meaning. -/
theorem brokenContractIsRefusedWhenIssued : Obligations.BrokenContractIsRefusedWhenIssued := by
  intro s c rest a b n hcw ht hd hn hbroken
  have hviolation : commandViolation s.platform c ≠ none := by
    rw [commandViolation_of_decode hd, contractViolation, sidePortViolation_some, Ne,
      bufferViolation_none_iff, toNat_eq_zero_iff]
    exact not_or.2 ⟨hn, hbroken⟩
  obtain ⟨r, hr⟩ := Option.ne_none_iff_exists'.1 hviolation
  exact ⟨r, (step_issue_idle hcw ht).1 r hr⟩

/-- Settles O41: a busy block looks at no command. -/
theorem issuingWhileBusyIsRefused : Obligations.IssuingWhileBusyIsRefused := by
  intro s c rest hcw ht
  rw [step_of_event ht, handleEvent, issue, if_pos (Option.isSome_iff_ne_none.2 hcw)]

/-! ### Completion -/

/-- A command in progress that meets the invariant is an operation inside the contract. -/
theorem legal_of_inv {s : State} (hinv : s.Inv) {c : Command} (hc : commandInProgress s = some c) :
    ∃ i, decode c = .instr i ∧ contractViolation s.platform i = none := by
  have hlegal := hinv.busyLegal c hc
  cases hd : decode c with
  | instr i => exact ⟨i, rfl, commandViolation_of_decode hd ▸ hlegal⟩
  | reservedWord w => rw [commandViolation, hd] at hlegal; cases hlegal

/-- Settles O42: the invariant holds the command in progress inside the contract, where every operation
completes. -/
theorem everyAcceptedCommandCompletes : Obligations.EveryAcceptedCommandCompletes := by
  intro s hinv hbusy hrun
  obtain ⟨w, hcw⟩ := Option.ne_none_iff_exists'.1 hbusy
  obtain ⟨i, hd, hlegal⟩ := legal_of_inv hinv (commandInProgress_busy hcw)
  obtain ⟨hempty, hblockRuns⟩ := stepRunsTheCommandInProgress s w i hcw hd
  rcases hrun with ht | ⟨rest, ht⟩
  · rw [hempty ht]
    exact exec_completes hlegal
  · rw [hblockRuns rest ht]
    exact exec_completes hlegal

/-- Settles O55: the table word's command stands on the ports and the block is the next to run. -/
theorem fetchedWordIsTheNextStep : Obligations.FetchedWordIsTheNextStep := by
  intro s nbits w i h
  unfold decodeTableWord at h
  split at h
  · cases h
  next c hc =>
    split at h
    · next hd =>
      cases h
      refine ⟨c, hd, ?_⟩
      rw [State.withFetchWord, placeTableWord, hc]
      exact (stepRunsTheCommandInProgress _ c.cw i rfl hd).2 s.timeline rfl
    · cases h

/-! ### Reading a response port -/

/-- A read of a port gives what the port holds, marked with its name, or is refused (10_state.md R12). -/
theorem step_readPort {α : Type} {s : State} {rest : List Event} {p : ResponsePort} {held : Option α}
    {mark : α → Observation} (hport : s.rsp.at p = held.map mark) (ht : s.timeline = .readPort p :: rest) :
    (held = none → step s = .refused (.portNotDriven p)) ∧
    (∀ v, held = some v →
      step s = .next { s with timeline := rest, observed := mark v :: s.observed }) := by
  rw [step_of_event ht, handleEvent, readPort]
  simp only [hport]
  exact ⟨fun h => by rw [h]; rfl, fun v h => by rw [h]; rfl⟩

/-- Settles O43: `Response.at` reads each port by its own name. -/
theorem onlyDrivenPortsCanBeRead : Obligations.OnlyDrivenPortsCanBeRead := fun s _ =>
  ⟨step_readPort s.rsp.at_ticks, step_readPort s.rsp.at_code, step_readPort s.rsp.at_chi,
    step_readPort s.rsp.at_clo, step_readPort s.rsp.at_count⟩

/-! ### Other agents -/

section Agents

variable {s : State} {a : Nat} {v : Byte} {rest : List Event}

theorem step_agentWrite (ht : s.timeline = .agentWrite a v :: rest) :
    step s =
      if sourceInUse s a || destInUse s a then .refused .dataRace
      else if plainAt s.platform a then .next { s with timeline := rest, mem := s.mem.write a v }
      else .refused .agentOutsideMemory :=
  step_of_event ht

theorem step_agentRead (ht : s.timeline = .agentRead a :: rest) :
    step s =
      if destInUse s a then .refused .dataRace
      else if plainAt s.platform a then
        .next { s with timeline := rest, observed := .byte a (s.mem.read a) :: s.observed }
      else .refused .agentOutsideMemory :=
  step_of_event ht

end Agents

/-- Settles O44: the buffers in use are the two ranges of the `HX.BUF` in progress. -/
theorem touchingABufferInUseIsADataRace : Obligations.TouchingABufferInUseIsADataRace := by
  intro s c src dst n a rest hc hd
  have hsource := sourceInUse_of_decode hc hd a
  have hdest := destInUse_of_decode hc hd a
  refine ⟨fun v ht => ?_, fun ht => ?_⟩
  · rw [step_agentWrite ht, hsource, hdest]
    simp only [Bool.or_eq_true, inRange_iff]
    exact ⟨fun hin => if_pos hin, fun hout hplain => by rw [if_neg hout, if_pos hplain]⟩
  · rw [step_agentRead ht, hdest]
    simp only [inRange_iff]
    exact ⟨fun hin => if_pos hin, fun hout hplain => by rw [if_neg hout, if_pos hplain]⟩

/-- Settles O45: with no buffer in use only the kind of the address decides. -/
theorem agentsAccessPlainMemoryFreely : Obligations.AgentsAccessPlainMemoryFreely := by
  intro s a rest hfree
  obtain ⟨hsource, hdest⟩ := noBufferInUse hfree a
  refine ⟨fun v ht => ?_, fun ht => ?_⟩
  · rw [step_agentWrite ht, hsource, hdest]
    refine ⟨fun hplain => ⟨_, by rw [if_neg (by decide), if_pos hplain], ?_, ?_, rfl⟩, fun hplain => ?_⟩
    · exact Memory.read_write_self s.mem a v
    · exact fun x hx => Memory.read_write_other s.mem v hx
    · simp [hplain]
  · rw [step_agentRead ht, hdest]
    exact ⟨fun hplain => by simp [hplain], fun hplain => by simp [hplain]⟩

/-! ### Reset and power -/

theorem step_reset_idle {s : State} {rest : List Event} (hcw : s.cw = none)
    (ht : s.timeline = .reset :: rest) : step s = .next (goIdle { s with timeline := rest }) := by
  have hc : commandInProgress { s with timeline := rest } = none := commandInProgress_idle hcw
  rw [step_of_event ht, handleEvent, applyReset, hc]

/-- Settles O46: an idle block has no command to abandon. -/
theorem resetOfAnIdleBlock : Obligations.ResetOfAnIdleBlock := fun _ _ => step_reset_idle

/-- Settles O48: reset and power leave an idle block in the same state, and power is not removed from a busy
one (log 11). -/
theorem powerCycleOfAnIdleBlockIsReset : Obligations.PowerCycleOfAnIdleBlockIsReset := by
  intro s rest ht
  rw [step_of_event ht, handleEvent, powerCycle]
  refine ⟨fun hcw => ?_, fun hcw => if_pos (Option.isSome_iff_ne_none.2 hcw)⟩
  rw [step_reset_idle (s := { s with timeline := .reset :: rest }) hcw rfl, if_neg (by simp [hcw])]

/-- Reset of a busy block: the destination of an `HX.BUF` is drawn, for any other command nothing is. -/
theorem step_reset_busy {s : State} {c : Command} {i : Instr} {rest : List Event}
    (hc : commandInProgress s = some c) (hd : decode c = .instr i)
    (hlegal : contractViolation s.platform i = none) (ht : s.timeline = .reset :: rest) :
    (∀ src d n, i = .hxBuf src (some d) n →
      step s = .next (goIdle (drawDestination d (2 * n.toNat) { s with timeline := rest }))) ∧
    ((∀ src d n, i ≠ .hxBuf src (some d) n) → step s = .next (goIdle { s with timeline := rest })) := by
  have hc' : commandInProgress { s with timeline := rest } = some c := hc
  have hviolation : commandViolation s.platform c = none := (commandViolation_of_decode hd).trans hlegal
  rw [step_of_event ht, handleEvent, applyReset, hc']
  simp only [hviolation, hd]
  refine ⟨fun src d n hi => by rw [hi], fun hi => ?_⟩
  split
  · next src d n heq => cases heq; exact absurd rfl (hi src d n)
  · rfl

/-- Settles O47: the draws fill the destination range and nothing else; an `HX.BUF` without a destination
has nothing to convert. -/
theorem resetAbandonsTheCommandInProgress : Obligations.ResetAbandonsTheCommandInProgress := by
  intro s c i rest hc hd hlegal ht
  obtain ⟨hbuf, hother⟩ := step_reset_busy hc hd hlegal ht
  cases i with
  | hxBuf src dst n =>
    cases dst with
    | some d =>
      refine ⟨_, hbuf src d n rfl, rfl, rfl, ?_, ?_⟩
      · intro d' j heq hj
        cases heq
        rw [goIdle_mem, drawDestination_mem, Memory.read_fill, if_pos (by omega), Nat.add_sub_cancel_left]
      · intro a ha
        rw [goIdle_mem, drawDestination_mem, Memory.read_fill, if_neg (ha d rfl)]
    | none =>
      have hzero : n = 0#16 :=
        ((sidePortViolation_none_iff s.platform src none n).1 hlegal).resolve_right
          fun ⟨_, _, _, hnone, _⟩ => nomatch hnone
      refine ⟨_, hother fun _ _ _ => nofun, rfl, ?_, fun _ _ => nofun, fun _ _ => rfl⟩
      rw [hzero]
      rfl
  | tcDec code => exact ⟨_, hother fun _ _ _ => nofun, rfl, rfl, rfl⟩
  | tcEnc ticks => exact ⟨_, hother fun _ _ _ => nofun, rfl, rfl, rfl⟩
  | hxByte b => exact ⟨_, hother fun _ _ _ => nofun, rfl, rfl, rfl⟩

/-- Settles O49: the launch state holds the table's constants and nothing on the ports. -/
theorem resetLeavesTheBlockIdle : Obligations.ResetLeavesTheBlockIdle := by
  intro p m tl
  refine ⟨?_, launch_cw p m tl, launch_src p m tl, launch_dst p m tl, ?_, ?_, ?_, ?_, ?_, launch_mem p m tl,
    launch_platform p m tl⟩
  · rw [launch_hexRom]
    decide
  all_goals rw [launch_rsp]

end Sys2Proof.Proofs.Steps

namespace Sys2Proof.Proofs.Invariants

open Sys2Proof.Machine Sys2Proof.Proofs.TimeoutCodec Sys2Proof.Proofs.HexCodec
open Sys2Proof.Proofs.Operations

/-! ### The canonical form of memory -/

theorem wfFrom_cons_iff (lo k : Nat) (v : Byte) (m : Memory) :
    Memory.wfFrom lo ((k, v) :: m) = true ↔
      lo ≤ k ∧ v ≠ Memory.unlisted ∧ Memory.wfFrom (k + 1) m = true := by
  simp [Memory.wfFrom, and_assoc]

theorem read_cons_self (k : Nat) (v : Byte) (m : Memory) : Memory.read ((k, v) :: m) k = v :=
  if_pos rfl

/-- A canonical memory lists nothing below its first address. -/
theorem read_of_wfFrom_of_lt {lo a : Nat} {m : Memory} (hm : Memory.wfFrom lo m = true) (ha : a < lo) :
    m.read a = Memory.unlisted := by
  induction m generalizing lo with
  | nil => rfl
  | cons c m ih =>
    obtain ⟨k, v⟩ := c
    obtain ⟨hlo, -, hrest⟩ := (wfFrom_cons_iff lo k v m).1 hm
    rw [Memory.read_cons, if_neg (by omega)]
    exact ih hrest (by omega)

section TwoMemories

variable {lo k k' : Nat} {v v' : Byte} {m m' : Memory}

/-- The first address of a canonical memory does not read as unlisted, so a canonical memory that reads the
same begins no later. -/
theorem head_le_of_read_eq (hm : Memory.wfFrom lo ((k, v) :: m) = true)
    (hm' : Memory.wfFrom lo ((k', v') :: m') = true)
    (h : ∀ a, Memory.read ((k, v) :: m) a = Memory.read ((k', v') :: m') a) : k' ≤ k := by
  obtain ⟨-, hv, -⟩ := (wfFrom_cons_iff lo k v m).1 hm
  obtain ⟨-, hv', hrest'⟩ := (wfFrom_cons_iff lo k' v' m').1 hm'
  have hfrom : Memory.wfFrom k' ((k', v') :: m') = true := (wfFrom_cons_iff ..).2 ⟨le_rfl, hv', hrest'⟩
  by_contra hlt
  exact hv ((read_cons_self k v m).symm.trans ((h k).trans (read_of_wfFrom_of_lt hfrom (by omega))))

/-- Memories with the same first address that read the same read the same after it. -/
theorem tail_read_eq (hm : Memory.wfFrom (k + 1) m = true) (hm' : Memory.wfFrom (k + 1) m' = true)
    (h : ∀ a, Memory.read ((k, v) :: m) a = Memory.read ((k, v') :: m') a) (a : Nat) :
    Memory.read m a = Memory.read m' a := by
  by_cases ha : a ≤ k
  · rw [read_of_wfFrom_of_lt hm (by omega), read_of_wfFrom_of_lt hm' (by omega)]
  · have hread := h a
    rwa [Memory.read_cons, Memory.read_cons, if_neg (by omega), if_neg (by omega)] at hread

end TwoMemories

/-- Two canonical memories that read the same everywhere are one list. -/
theorem eq_of_read_eq {lo : Nat} {m m' : Memory} (hm : Memory.wfFrom lo m = true)
    (hm' : Memory.wfFrom lo m' = true) (h : ∀ a, m.read a = m'.read a) : m = m' := by
  induction m generalizing lo m' with
  | nil =>
    cases m' with
    | nil => rfl
    | cons c m' =>
      obtain ⟨k, v⟩ := c
      have hunlisted := (h k).symm.trans (Memory.read_nil k)
      exact absurd ((read_cons_self k v m').symm.trans hunlisted) ((wfFrom_cons_iff lo k v m').1 hm').2.1
  | cons c m ih =>
    obtain ⟨k, v⟩ := c
    obtain ⟨-, hv, hrest⟩ := (wfFrom_cons_iff lo k v m).1 hm
    cases m' with
    | nil => exact absurd ((read_cons_self k v m).symm.trans (h k)) hv
    | cons c' m' =>
      obtain ⟨k', v'⟩ := c'
      obtain rfl : k = k' := Nat.le_antisymm
        (head_le_of_read_eq hm' hm fun a => (h a).symm) (head_le_of_read_eq hm hm' h)
      obtain ⟨-, -, hrest'⟩ := (wfFrom_cons_iff lo k v' m').1 hm'
      have hvalue : v = v' := by simpa [Memory.read_cons] using h k
      rw [hvalue, ih hrest hrest' (tail_read_eq hrest hrest' h)]

/-- Settles O54: the first entries agree, and with them the rests. -/
theorem memoriesThatReadTheSameAreEqual : Obligations.MemoriesThatReadTheSameAreEqual :=
  fun _ _ => eq_of_read_eq

/-! ### What no step changes -/

theorem exec_hexRom_platform {i : Instr} {s t : State} (h : exec i s = .next t) :
    t.hexRom = s.hexRom ∧ t.platform = s.platform := by
  rw [exec_frame h]
  exact ⟨rfl, rfl⟩

/-- Settles O52: no form of a step updates the two fields. -/
theorem noStepChangesTableOrParameters : Obligations.NoStepChangesTableOrParameters := by
  intro s t h
  cases step_form h with
  | ran i c busy decoded run =>
    rcases run with ⟨-, hexec⟩ | ⟨rest, -, hexec⟩
    · exact exec_hexRom_platform hexec
    · exact exec_hexRom_platform (s := { s with timeline := rest }) hexec
  | idle free rest same => rw [same]; exact ⟨rfl, rfl⟩
  | issued c rest free head legal next => rw [next]; exact ⟨rfl, rfl⟩
  | observed o rest next => rw [next]; exact ⟨rfl, rfl⟩
  | stored a v rest head plain next => rw [next]; exact ⟨rfl, rfl⟩
  | cleared rest next => rw [next]; exact ⟨rfl, rfl⟩
  | abandoned c src dst n rest head busy decoded legal next => rw [next]; exact ⟨rfl, rfl⟩

/-! ### Which bytes of memory a step changes -/

/-- An operation changes a byte only as an `HX.BUF` whose destination range holds it. -/
theorem exec_changes_only_dest {i : Instr} {s t : State} {a : Nat} (h : exec i s = .next t)
    (hchange : t.mem.read a ≠ s.mem.read a) :
    ∃ src dst n, i = .hxBuf src (some dst) n ∧ dst ≤ a ∧ a < dst + 2 * n.toNat := by
  cases i with
  | tcDec code => cases h; exact absurd rfl hchange
  | tcEnc ticks => cases h; exact absurd rfl hchange
  | hxByte b => cases h; exact absurd rfl hchange
  | hxBuf src dst n =>
    have houtside := (hxBufLeavesAllElseAlone src dst n s t h).1 a
    by_contra hno
    exact hchange (houtside fun d hd hin => hno ⟨src, d, n, by rw [hd], hin⟩)

/-- Settles O53: of the forms of a step three write memory: the run, the other agent's store, and the reset
in the middle of an `HX.BUF`. -/
theorem memoryChangesOnlyByHxBufOrAgents : Obligations.MemoryChangesOnlyByHxBufOrAgents := by
  intro s t a h hchange
  cases step_form h with
  | ran i c busy decoded run =>
    rcases run with ⟨ht, hexec⟩ | ⟨rest, ht, hexec⟩
    · obtain ⟨src, dst, n, rfl, hlow, hhigh⟩ := exec_changes_only_dest hexec hchange
      exact .inr ⟨c, src, dst, n, busy, decoded, hlow, hhigh, .inl ht⟩
    · obtain ⟨src, dst, n, rfl, hlow, hhigh⟩ :=
        exec_changes_only_dest (s := { s with timeline := rest }) hexec hchange
      exact .inr ⟨c, src, dst, n, busy, decoded, hlow, hhigh, .inr (.inl ⟨rest, ht⟩)⟩
  | idle free rest same => rw [same] at hchange; exact absurd rfl hchange
  | issued c rest free head legal next => rw [next] at hchange; exact absurd rfl hchange
  | observed o rest next => rw [next] at hchange; exact absurd rfl hchange
  | stored b v rest head plain next =>
    by_cases hab : a = b
    · exact .inl ⟨v, rest, hab ▸ head⟩
    · rw [next] at hchange
      exact absurd (Memory.read_write_other s.mem v hab) hchange
  | cleared rest next => rw [next] at hchange; exact absurd rfl hchange
  | abandoned c src dst n rest head busy decoded legal next =>
    rw [next, goIdle_mem, drawDestination_mem, Memory.read_fill] at hchange
    by_cases hin : dst ≤ a ∧ a < dst + 2 * n.toNat
    · exact .inr ⟨c, src, dst, n, busy, decoded, hin.1, hin.2, .inr (.inr ⟨rest, head⟩)⟩
    · rw [if_neg hin] at hchange
      exact absurd rfl hchange

/-! ### The invariant -/

/-- Settles O50: the reset state is idle, its memory empty. -/
theorem resetMeetsTheInvariant : Obligations.ResetMeetsTheInvariant where
  platformOk := by decide
  romOk := launch_hexRom ..
  memWf := rfl
  memBelow := rfl
  rspLegal := rfl
  idlePorts _ := ⟨rfl, rfl⟩
  busyEmpty hbusy := absurd rfl hbusy
  busyLegal _ hc := nomatch hc

/-- An operation completes with one operation's response (10_state.md R12). -/
theorem exec_rsp_legal {i : Instr} {s t : State} (h : exec i s = .next t) : t.rsp.legal = true := by
  have hports := anOperationDrivesItsOwnPortsOnly i s t h
  cases i with
  | tcDec code => obtain ⟨v, hv⟩ := hports; rw [hv]; rfl
  | tcEnc ticks => obtain ⟨v, hv⟩ := hports; rw [hv]; rfl
  | hxByte b => obtain ⟨v, w, hv⟩ := hports; rw [hv]; rfl
  | hxBuf src dst n => obtain ⟨v, hv⟩ := hports; rw [hv]; rfl

/-- The destination of an `HX.BUF` inside the contract exists, if there is anything to convert. -/
theorem destFits_or_zero {p : Platform} {src : Option Nat} {dst : Nat} {n : Half}
    (h : sidePortViolation p src (some dst) n = none) : n = 0#16 ∨ dst + 2 * n.toNat ≤ 2 ^ p.aw := by
  refine ((sidePortViolation_none_iff p src (some dst) n).1 h).imp_right ?_
  rintro ⟨a, b, -, hdst, contract⟩
  cases hdst
  exact contract.destFits

/-- An operation keeps memory canonical and inside the address space. -/
theorem exec_mem {i : Instr} {s t : State} (h : exec i s = .next t) (hwf : s.mem.wf = true)
    (hbelow : s.mem.below s.platform.aw = true) :
    t.mem.wf = true ∧ t.mem.below s.platform.aw = true := by
  cases i with
  | tcDec code => cases h; exact ⟨hwf, hbelow⟩
  | tcEnc ticks => cases h; exact ⟨hwf, hbelow⟩
  | hxByte b => cases h; exact ⟨hwf, hbelow⟩
  | hxBuf src dst n =>
    obtain ⟨hviolation, rfl⟩ := of_exec_hxBuf_next h
    refine ⟨bufLoop_wf hwf, ?_⟩
    rcases (sidePortViolation_none_iff s.platform src dst n).1 hviolation with
      rfl | ⟨a, b, rfl, rfl, contract⟩
    · exact hbelow
    · exact bufLoop_below contract.destFits hbelow

/-- A state with no command in progress meets the invariant by its data alone. -/
theorem inv_of_idle {t : State} (hplatform : t.platform.wf = true) (hrom : t.hexRom = hexDigits)
    (hwf : t.mem.wf = true) (hbelow : t.mem.below t.platform.aw = true) (hrsp : t.rsp.legal = true)
    (hcw : t.cw = none) (hsrc : t.src = none) (hdst : t.dst = none) : t.Inv where
  platformOk := hplatform
  romOk := hrom
  memWf := hwf
  memBelow := hbelow
  rspLegal := hrsp
  idlePorts _ := ⟨hsrc, hdst⟩
  busyEmpty hbusy := absurd hcw hbusy
  busyLegal _ hc := by rw [commandInProgress_idle hcw] at hc; cases hc

/-- The completion of an operation meets the invariant. -/
theorem inv_exec {i : Instr} {s t : State} (hinv : s.Inv) (h : exec i s = .next t) : t.Inv := by
  obtain ⟨hrom, hplatform⟩ := exec_hexRom_platform h
  obtain ⟨hwf, hbelow⟩ := exec_mem h hinv.memWf hinv.memBelow
  refine inv_of_idle (hplatform ▸ hinv.platformOk) (hrom.trans hinv.romOk) hwf (hplatform ▸ hbelow)
    (exec_rsp_legal h) ?_ ?_ ?_
  all_goals rw [exec_frame h]

/-- The invariant does not speak of the timeline or of what has been read. -/
theorem inv_outside {s : State} (hinv : s.Inv) (timeline : List Event) (observed : List Observation) :
    State.Inv { s with timeline := timeline, observed := observed } :=
  { hinv with }

/-- Memory that stays canonical and inside the address space may hold other bytes. -/
theorem inv_mem {s : State} (hinv : s.Inv) {m : Memory} (hwf : m.wf = true)
    (hbelow : m.below s.platform.aw = true) : State.Inv { s with mem := m } :=
  { hinv with memWf := hwf, memBelow := hbelow }

theorem inv_goIdle {s : State} (hinv : s.Inv) : (goIdle s).Inv :=
  inv_of_idle hinv.platformOk hinv.romOk hinv.memWf hinv.memBelow rfl rfl rfl rfl

theorem inv_issued {s : State} (hinv : s.Inv) {c : Command}
    (hlegal : commandViolation s.platform c = none) :
    State.Inv { s with cw := some c.cw, src := c.src, dst := c.dst, rsp := {}, bus := [] } where
  platformOk := hinv.platformOk
  romOk := hinv.romOk
  memWf := hinv.memWf
  memBelow := hinv.memBelow
  rspLegal := rfl
  idlePorts hcw := nomatch hcw
  busyEmpty _ := rfl
  busyLegal _ hc := by cases hc; exact hlegal

/-- The draws of an abandoned `HX.BUF` stay inside the address space. -/
theorem inv_drawDestination {s : State} (hinv : s.Inv) {src : Option Nat} {dst : Nat} {n : Half}
    (hlegal : sidePortViolation s.platform src (some dst) n = none) :
    (drawDestination dst (2 * n.toNat) s).Inv := by
  have hbelow : (drawDestination dst (2 * n.toNat) s).mem.below s.platform.aw = true := by
    rcases destFits_or_zero hlegal with rfl | hfit
    · exact hinv.memBelow
    · exact Memory.below_fill hfit hinv.memBelow
  exact { inv_mem hinv (Memory.wf_fill hinv.memWf) hbelow with }

/-- Settles O51: each form of a step keeps the invariant. -/
theorem stepKeepsTheInvariant : Obligations.StepKeepsTheInvariant := by
  intro s t hinv h
  have hmoved (rest : List Event) : State.Inv { s with timeline := rest } :=
    inv_outside hinv rest s.observed
  cases step_form h with
  | ran i c busy decoded run =>
    rcases run with ⟨-, hexec⟩ | ⟨rest, -, hexec⟩
    · exact inv_exec hinv hexec
    · exact inv_exec (hmoved rest) hexec
  | idle free rest same => rw [same]; exact hmoved rest
  | issued c rest free head legal next => rw [next]; exact inv_issued (hmoved rest) legal
  | observed o rest next => rw [next]; exact inv_outside hinv rest _
  | stored a v rest head plain next =>
    rw [next]
    exact inv_mem (hmoved rest) (Memory.wf_write a v hinv.memWf)
      (Memory.below_write v (plainAt_lt plain) hinv.memBelow)
  | cleared rest next => rw [next]; exact inv_goIdle (hmoved rest)
  | abandoned c src dst n rest head busy decoded legal next =>
    rw [commandViolation_of_decode decoded] at legal
    rw [next]
    exact inv_goIdle (inv_drawDestination (hmoved rest) legal)

end Sys2Proof.Proofs.Invariants
